-- ==== Sys2Proof/Word.lean ====
section
/-! DEFINITION. The plain word types of the block: a bus word and its parts. -/

namespace Sys2Proof

/-- One 32-bit register, bus word or command word (20_memory.md R62, 30_encoding.md R90). -/
abbrev Word := BitVec 32

/-- The 16-bit value of a parameter or key register (10_state.md R24, R25). -/
abbrev Half := BitVec 16

/-- One byte of a bus word (20_memory.md R69). -/
abbrev Byte := BitVec 8

end Sys2Proof
end

