-- ==== Sys2Proof/Syntax.lean ====
section
/-! DEFINITION. The nine commands of the GF2SMG command set (30_encoding.md R92). -/

namespace Sys2Proof

/-- One constructor per row of the opcode map. No command has an operand field: every operand is an
implicit register (30_encoding.md R91, R93). -/
inductive Instr where
  /-- 43_control.md R170 -/
  | nop
  /-- 40_code_generator.md R110 -/
  | genp
  /-- 41_encapsulator.md R120 -/
  | genm
  /-- 41_encapsulator.md R122 -/
  | gene
  /-- 41_encapsulator.md R125 -/
  | mulg
  /-- 41_encapsulator.md R127 -/
  | xore
  /-- 41_encapsulator.md R129 -/
  | encap
  /-- 42_decapsulator.md R150 -/
  | synd
  /-- 42_decapsulator.md R154 -/
  | decode
  deriving DecidableEq, Repr

end Sys2Proof
end

