-- ==== Sys2Proof/WellFormed.lean ====
section
/-! DEFINITION. When a command word is valid (30_encoding.md R94). An `Instr` has no field, so there
is nothing in it to check: the checks are on the word. -/

namespace Sys2Proof

/-- The field RSV of a command word is zero (30_encoding.md R90). -/
def rsvClear (v : Word) : Bool := v.extractLsb' 8 24 == 0

/-- The field OPC of a command word is one of the nine opcodes (30_encoding.md R92). -/
def opcDefined (v : Word) : Bool := (v.extractLsb' 0 8).toNat ≤ 8

/-- 30_encoding.md R94: v is valid exactly when v[31:8] = 0 and v[7:0] <= 0x08. -/
def validWord (v : Word) : Bool := rsvClear v && opcDefined v

/-- Every command is well formed: it has no operand (30_encoding.md R91). -/
def Instr.wellFormed : Instr → Bool
  | .nop | .genp | .genm | .gene | .mulg | .xore | .encap | .synd | .decode => true

end Sys2Proof
end

