-- ==== Sys2Proof/Decode.lean ====
section
/-! DEFINITION. The decoder, total on every 32-bit word, and the encoder (30_encoding.md R90 to R95). -/

namespace Sys2Proof

/-- Why a command word is illegal (30_encoding.md R95). -/
inductive IllegalWord where
  /-- RSV is not 0. -/
  | reservedBits
  /-- OPC is in 0x09..0xFF. -/
  | reservedOpcode
  deriving DecidableEq, Repr

/-- What the decoder answers: a command, or a rejection by name. -/
inductive Decoded where
  | instr (i : Instr)
  | illegal (why : IllegalWord)
  deriving DecidableEq, Repr

/-- The field OPC, bits 7:0 of a command word (30_encoding.md R90). -/
def opcOf (v : Word) : BitVec 8 := v.extractLsb' 0 8

/-- The field RSV, bits 31:8 of a command word (30_encoding.md R90). -/
def rsvOf (v : Word) : BitVec 24 := v.extractLsb' 8 24

/-- The opcode map (30_encoding.md R92). -/
def instrOfOpc (o : BitVec 8) : Option Instr :=
  match o.toNat with
  | 0x00 => some .nop
  | 0x01 => some .genp
  | 0x02 => some .genm
  | 0x03 => some .gene
  | 0x04 => some .mulg
  | 0x05 => some .xore
  | 0x06 => some .encap
  | 0x07 => some .synd
  | 0x08 => some .decode
  | _ => none

/-- The decoder (30_encoding.md R94): total; a word with RSV not 0 is illegal whatever its OPC (R95). -/
def decodeWord (v : Word) : Decoded :=
  if rsvOf v = 0 then
    match instrOfOpc (opcOf v) with
    | some i => .instr i
    | none => .illegal .reservedOpcode
  else .illegal .reservedBits

/-- The opcode of a command (30_encoding.md R92, column OPC). -/
def opcode : Instr → BitVec 8
  | .nop => 0x00
  | .genp => 0x01
  | .genm => 0x02
  | .gene => 0x03
  | .mulg => 0x04
  | .xore => 0x05
  | .encap => 0x06
  | .synd => 0x07
  | .decode => 0x08

/-- The full command word: RSV = 0 above the opcode (30_encoding.md R90, R92). -/
def encode (i : Instr) : Word := (0 : BitVec 24) ++ opcode i

/-- The word held by four bytes, lowest address first: bus data is little-endian (20_memory.md R69). -/
def wordOfBytes (b0 b1 b2 b3 : Byte) : Word := b3 ++ b2 ++ b1 ++ b0

/-- Byte b (0..3) of a word: bits 8b+7 .. 8b (20_memory.md R69). -/
def byteOfWord (v : Word) (b : Nat) : Byte := v.extractLsb' (8 * b) 8

/-- The decoder on bytes, lowest address first. Anything but exactly one word is refused: the block
has no other instruction length (30_encoding.md R91). -/
def decodeBytes : List Byte → Option Decoded
  | [b0, b1, b2, b3] => some (decodeWord (wordOfBytes b0 b1 b2 b3))
  | _ => none

/-- The command the decoder reads from an opcode-table row's bits, laid out as the bytes of one bus
word; none where it refuses. -/
def decodeTableWord (nbits w : Nat) : Option Instr :=
  let v : Word := BitVec.ofNat 32 (w % 2 ^ nbits)
  match decodeBytes [byteOfWord v 0, byteOfWord v 1, byteOfWord v 2, byteOfWord v 3] with
  | some (.instr i) => some i
  | _ => none

end Sys2Proof
end

