-- ==== Sys2Proof/Config.lean ====
section
/-! DEFINITION. What this hardware fixes at build time (00_scope.md R8), and the free values: constants
without a body, of which nothing is known. -/

namespace Sys2Proof.Config

/-- Largest legal k; rows of P; width of M and D (00_scope.md R8). -/
abbrev KMAX : Nat := 128

/-- Largest legal n - k; columns of P; width of S (00_scope.md R8). -/
abbrev RMAX : Nat := 64

/-- Width of E and C (00_scope.md R8). -/
abbrev NMAX : Nat := KMAX + RMAX

/-- Search window of the decoder, in probes (00_scope.md R8). -/
abbrev W : Nat := 16

/-- The constant register ID, "GF2S" (10_state.md R21). -/
abbrev idWord : Word := 0x47463253

/-- The constant register CAP: W, RMAX and KMAX from bit 23 down (10_state.md R22). -/
abbrev capWord : Word := BitVec.ofNat 32 (W * 65536 + RMAX * 256 + KMAX)

/-- Words of the aperture that hold `len` bits (10_state.md R37). -/
abbrev wordsFor (len : Nat) : Nat := (len + 31) / 32

/-- Bytes from one row of P to the next in the aperture (10_state.md R41). -/
abbrev PSTRIDE : Nat := 4 * wordsFor RMAX

/-- FREE VALUE: the vector of `len` bits that the random source answers to draw number `idx`
(10_state.md R45, 20_memory.md R74: RNG_MAPPING is OPEN). Nothing constrains it. Log entry 2. -/
opaque drawBits (idx len : Nat) : BitVec len

/-- FREE VALUE: the word a read of a BUSY_UNSTABLE register returns while BUSY = 1, before its
reserved bits are cleared (10_state.md R46). Each read has a number of its own. Log entry 5. -/
opaque busyWord (idx : Nat) : Word

/-- OPEN parameter: which 4 KiB page of the host's address space the aperture is (20_memory.md R60).
The block never sees it: bus_addr is the offset. Log entry 10. -/
opaque basePage : Nat

/-- The parameter BASE, 4 KiB aligned (20_memory.md R60). -/
def base : Nat := 4096 * basePage

end Sys2Proof.Config
end

