-- ==== Sys2Proof/Machine/State.lean ====
section
/-! DEFINITION. The state of the block, all of it plain data (10_state.md R20), and its reset value. -/

namespace Sys2Proof.Machine

open Sys2Proof.Config

/-- Why the machine stops with a fault: it never does. Every bus transaction and every command word has
a defined outcome (70_reset_and_hazards.md R229); a command error is a next state
(60_exceptions.md R186) and a bus error is a response (R189). No constructor, so nobody raises one;
that is safe: nothing is left out by a fault. Log entry 17. -/
inductive Fault where
  deriving DecidableEq, Repr

/-- Why an instruction has no meaning. -/
inductive Refusal where
  /-- An arm of exec that has no meaning yet. No arm raises it: all nine commands are modelled. It would
  be safe: the model would stop where the block goes on. -/
  | notModelled (mnemonic : String)
  deriving DecidableEq, Repr

/-- The command errors of 60_exceptions.md R181. -/
inductive CmdError where
  /-- LEGAL fails (R182). -/
  | invalidParameters
  /-- Reserved for the host's serialiser; never raised by the block (R183). -/
  | malformedKey
  /-- The key's dimensions are not the parameters' (R185). -/
  | invalidKey
  /-- Reserved for the host's serialiser; never raised by the block (R183). -/
  | malformedCiphertext
  /-- The command word is not one of the nine (R184). -/
  | illegalCommand
  deriving DecidableEq, Repr

/-- The fields of STATUS (10_state.md R26). Its reserved bits have no storage (20_memory.md R66). -/
structure Status where
  /-- R27: a command is in flight. -/
  busy : Bool
  /-- R28: a completion has happened; the pending bit of irq. -/
  done : Bool
  /-- R29: the last completion failed. -/
  err : Bool
  /-- R30: sticky, a write was dropped while busy. -/
  ovr : Bool
  /-- R31: the code of the last completion. -/
  errcode : BitVec 4
  /-- R32: bits 7:0 of the command word that completed last. -/
  lastop : BitVec 8
  deriving DecidableEq, Repr

/-- The matrix store: KMAX rows of RMAX columns (10_state.md R40). -/
abbrev Matrix := Vector (BitVec RMAX) KMAX

/-- A host transaction as the bus carries it (20_memory.md R60, R61). -/
structure Txn where
  /-- bus_we: true for a write. -/
  we : Bool
  /-- bus_addr: the byte offset in the aperture. -/
  addr : BitVec 12
  /-- bus_size: 0, 1, 2, 3 for 1, 2, 4, 8 bytes. -/
  size : BitVec 2
  /-- bus_wdata. -/
  wdata : Word
  deriving DecidableEq, Repr

/-- The response to a transaction (20_memory.md R61). -/
inductive Response where
  /-- OKAY to a read, with its data. -/
  | okRead (data : Word)
  /-- OKAY to a write. -/
  | okWrite
  /-- ERROR (R62, R63). -/
  | error
  deriving DecidableEq, Repr

/-- What the outside presents at one step. The order of a list of these is the one total order of
20_memory.md R71. Log entry 1. -/
inductive Input where
  /-- The host performs a transaction. -/
  | bus (t : Txn)
  /-- The engine's turn: a completion may fall here (10_state.md R44). -/
  | engine
  /-- rst_n = 0 at a rising edge of clk (70_reset_and_hazards.md R210). -/
  | hwReset
  /-- The random source starts (true) or stops (false) offering words (20_memory.md R74). -/
  | rnd (valid : Bool)
  deriving DecidableEq, Repr

/-- The whole state: the registers of 10_state.md R20, then four fields of the MODEL's own. ID and CAP
are constants (Config), CMD and CTRL.SRST have no storage, irq is a view (`State.irq`). -/
structure State where
  /-- CTRL.IE (R23). -/
  ie : Bool
  /-- STATUS (R26). -/
  status : Status
  /-- PARAM_N (R24). -/
  paramN : Half
  /-- PARAM_K (R24). -/
  paramK : Half
  /-- PARAM_T (R24). -/
  paramT : Half
  /-- KEY_N (R25). -/
  keyN : Half
  /-- KEY_K (R25). -/
  keyK : Half
  /-- SYND_WT (R34). -/
  syndWt : BitVec 16
  /-- DEC_STAT (R35). -/
  decStat : Word
  /-- SEARCH_CNT (R36). -/
  searchCnt : BitVec 8
  /-- Vector register M, the message (R37). -/
  regM : BitVec KMAX
  /-- Vector register E, the error vector (R37). -/
  regE : BitVec NMAX
  /-- Vector register C, the ciphertext or received word (R37). -/
  regC : BitVec NMAX
  /-- Vector register S, the syndrome (R37). -/
  regS : BitVec RMAX
  /-- Vector register D, the decoded message (R37). -/
  regD : BitVec KMAX
  /-- The matrix store P (R40). -/
  matP : Matrix
  /-- CMD_IF, the command word latched at issue; hidden (R48). -/
  cmdIf : Word
  /-- MODEL's own: what the outside presents from now on, oldest first. Log entry 1. -/
  inputs : List Input
  /-- MODEL's own: the random source offers words (20_memory.md R74). Log entry 4. -/
  rndValid : Bool
  /-- MODEL's own: the number of the next free value. Log entry 3. -/
  fresh : Nat
  /-- MODEL's own: the response to the last bus transaction. Log entry 6. -/
  resp : Option Response
  deriving DecidableEq, Repr

/-- STATUS after reset: every field 0 (10_state.md R26). -/
def Status.reset : Status :=
  { busy := false, done := false, err := false, ovr := false, errcode := 0, lastop := 0 }

/-- Right after reset (70_reset_and_hazards.md R210, 10_state.md R20): every register is 0. The last four
fields are the model's own (log entries 1, 3, 4, 6). -/
def State.reset : State :=
  { ie := false
    status := Status.reset
    paramN := 0
    paramK := 0
    paramT := 0
    keyN := 0
    keyK := 0
    syndWt := 0
    decStat := 0
    searchCnt := 0
    regM := 0
    regE := 0
    regC := 0
    regS := 0
    regD := 0
    matP := Vector.replicate KMAX 0
    cmdIf := 0
    inputs := []
    rndValid := false
    fresh := 0
    resp := none }

end Sys2Proof.Machine
end

