-- ==== Sys2Proof/Machine/Flags.lean ====
section
/-! DEFINITION. STATUS: the word the host reads, and every way its fields change (10_state.md R26 to R32). -/

namespace Sys2Proof.Machine

/-- The code of a command error (60_exceptions.md R181). -/
def CmdError.code : CmdError → BitVec 4
  | .invalidParameters => 1
  | .malformedKey => 2
  | .invalidKey => 3
  | .malformedCiphertext => 4
  | .illegalCommand => 5

/-- One bit of a register word at position `b`. -/
def bitAt (x : Bool) (b : Nat) : Word := (BitVec.ofBool x).setWidth 32 <<< b

/-- STATUS as a read shows it; the reserved bits 7:4, 15:12 and 31:24 read 0 (10_state.md R26). -/
def Status.word (f : Status) : Word :=
  bitAt f.busy 0 ||| bitAt f.done 1 ||| bitAt f.err 2 ||| bitAt f.ovr 3
    ||| f.errcode.setWidth 32 <<< 8 ||| f.lastop.setWidth 32 <<< 16

/-- A host write to STATUS: a written 1 clears DONE, ERR or OVR; the other fields ignore it (10_state.md R26). -/
def Status.clearWritten (f : Status) (v : Word) : Status :=
  { f with
    done := f.done && !v.getLsbD 1
    err := f.err && !v.getLsbD 2
    ovr := f.ovr && !v.getLsbD 3 }

/-- Issue sets BUSY and clears DONE and ERR; ERRCODE, LASTOP and OVR stay (10_state.md R43, R30, R31). -/
def Status.issued (f : Status) : Status := { f with busy := true, done := false, err := false }

/-- A dropped write sets OVR (10_state.md R30). -/
def Status.overrun (f : Status) : Status := { f with ovr := true }

/-- A successful completion of the command word v (10_state.md R44, steps 3 and 4). -/
def Status.succeeded (f : Status) (v : Word) : Status :=
  { f with busy := false, done := true, err := false, errcode := 0, lastop := v.extractLsb' 0 8 }

/-- A failed completion of the command word v (60_exceptions.md R186). -/
def Status.failed (f : Status) (v : Word) (code : CmdError) : Status :=
  { f with busy := false, done := true, err := true, errcode := code.code, lastop := v.extractLsb' 0 8 }

/-- The interrupt output: irq = CTRL.IE AND STATUS.DONE, at every state (60_exceptions.md R190). Log entry 8. -/
def State.irq (s : State) : Bool := s.ie && s.status.done

end Sys2Proof.Machine
end

