-- ==== Sys2Proof/Machine/Operands.lean ====
section
/-! DEFINITION. The implicit operands of the commands: the parameter set, the notation of bit vectors over
GF(2), the key, and the draws (00_scope.md R7, R10 to R15). -/

namespace Sys2Proof.Machine

open Sys2Proof.Config

/-! ### The parameter set -/

/-- n, the code length (00_scope.md R6). -/
def State.n (s : State) : Nat := s.paramN.toNat

/-- k, the message length (00_scope.md R6). -/
def State.k (s : State) : Nat := s.paramK.toNat

/-- t, the error weight (00_scope.md R6); it comes from PARAM_T at the time of the command (10_state.md R24). -/
def State.t (s : State) : Nat := s.paramT.toNat

/-- LEGAL(n, k, t) (00_scope.md R7). The bound t <= n - k is no part of it (90_conflicts.md C1). -/
def legal (n k t : Nat) : Bool :=
  decide (1 ≤ k) && decide (k < n) && decide (k ≤ KMAX) && decide (n - k ≤ RMAX) && decide (t ≤ n)

/-- LEGAL of the current parameter set. -/
def State.legal (s : State) : Bool := Machine.legal s.n s.k s.t

/-- The KEY check, on 16-bit values (60_exceptions.md R185). -/
def State.keyMatches (s : State) : Bool := s.keyN == s.paramN && s.keyK == s.paramK

/-! ### Bit vectors (00_scope.md R10) -/

/-- `zext_width(slice(v, a, b))`: position j holds v[a + j] for j < b - a and 0 above (R10, 10_state.md R39). -/
def slice (width : Nat) {len : Nat} (v : BitVec len) (a b : Nat) : BitVec width :=
  (v.extractLsb' a (b - a)).setWidth width

/-- `zext_NMAX(u ++ w)` with |u| = k: u at positions 0..k-1, w from position k up (R10). u and w hold 0 at
and above their lengths. -/
def concat (k : Nat) (u : BitVec KMAX) (w : BitVec RMAX) : BitVec NMAX :=
  u.setWidth NMAX ||| w.setWidth NMAX <<< k

/-- `unit(i)`: a single 1, at position i (R10). -/
def unit (i : Nat) : BitVec KMAX := BitVec.twoPow KMAX i

/-- The number of positions below `b` of v that hold 1. -/
def onesBelow {len : Nat} (v : BitVec len) : Nat → Nat
  | 0 => 0
  | b + 1 => onesBelow v b + (v.getLsbD b).toNat

/-- popcount(v), the number of positions of v that hold 1 (R14). -/
def popcount {len : Nat} (v : BitVec len) : Nat := onesBelow v len

/-! ### The key -/

/-- Row i of the matrix store, `P[i]` (00_scope.md R15); there is no row at KMAX or above. -/
def row (p : Matrix) (i : Nat) : BitVec RMAX := p[i]?.getD 0

/-- The XOR of the rows P[i], i < k, for which m[i] = 1 (00_scope.md R13). -/
def xorRows (p : Matrix) (m : BitVec KMAX) : Nat → BitVec RMAX
  | 0 => 0
  | k + 1 => xorRows p m k ^^^ (if m.getLsbD k then row p k else 0)

/-- m·P over rows 0..k-1 and columns 0..r-1, zero-extended (00_scope.md R13, 41_encapsulator.md R125). -/
def timesP (p : Matrix) (m : BitVec KMAX) (k r : Nat) : BitVec RMAX := slice RMAX (xorRows p m k) 0 r

/-- m·G = m ++ m·P (10_state.md R42, 41_encapsulator.md R125), zero-extended. -/
def timesG (p : Matrix) (m : BitVec KMAX) (k r : Nat) : BitVec NMAX := concat k m (timesP p m k r)

/-- The matrix store of a k x r draw R: P[i][j] = R[i*r + j] inside the key and 0 outside it
(40_code_generator.md R110). -/
def keyOfDraw (k r : Nat) (bits : BitVec (k * r)) : Matrix :=
  Vector.ofFn fun i : Fin KMAX => if i.val < k then slice RMAX bits (i.val * r) (i.val * r + r) else 0

/-! ### Draws (00_scope.md R15, 10_state.md R45) -/

/-- The shape of a DrawSubset: keeps exactly `need` ones among positions 0..b-1. Going down from b-1, a
position is taken when `raw` takes it or when the remaining positions are all needed; none is taken once
`need` is 0. A raw vector with exactly `need` ones below b is left as it is there, so every subset of the
size is possible. Log entry 12. -/
def exactly {len : Nat} (raw : BitVec len) : (b need : Nat) → BitVec len
  | 0, _ => 0
  | _ + 1, 0 => 0
  | b + 1, need + 1 =>
    if raw.getLsbD b || decide (b < need + 1) then BitVec.twoPow len b ||| exactly raw b need
    else exactly raw b (need + 1)

/-- errorsInRedundancy = min(t, n - k) (41_encapsulator.md R121). -/
def State.errorsInRedundancy (s : State) : Nat := min s.t (s.n - s.k)

/-- errorsInInfo = t - errorsInRedundancy (41_encapsulator.md R121). -/
def State.errorsInInfo (s : State) : Nat := s.t - s.errorsInRedundancy

/-- DrawBits(k·(n-k)) with draw number idx (40_code_generator.md R110). -/
def State.drawKey (s : State) (idx : Nat) : BitVec (s.k * (s.n - s.k)) := drawBits idx (s.k * (s.n - s.k))

/-- DrawBits(k) with draw number idx, zero-extended (41_encapsulator.md R120). -/
def State.drawMessage (s : State) (idx : Nat) : BitVec KMAX := slice KMAX (drawBits idx s.k) 0 s.k

/-- The information positions: DrawSubset over 0..k-1 of size errorsInInfo (41_encapsulator.md R122). -/
def State.drawInfo (s : State) (idx : Nat) : BitVec KMAX :=
  exactly (drawBits idx KMAX) s.k s.errorsInInfo

/-- The redundancy positions, less k: DrawSubset over k..n-1 of size errorsInRedundancy (41_encapsulator.md R122). -/
def State.drawRedundancy (s : State) (idx : Nat) : BitVec RMAX :=
  exactly (drawBits idx RMAX) (s.n - s.k) s.errorsInRedundancy

/-- The error vector of the two subsets, A drawn before B (41_encapsulator.md R122, 92_eei_decisions.md D32). -/
def State.drawError (s : State) (idx : Nat) : BitVec NMAX :=
  concat s.k (s.drawInfo idx) (s.drawRedundancy (idx + 1))

end Sys2Proof.Machine
end

