-- ==== Sys2Proof/Machine/Ops.lean ====
section
/-! DEFINITION. The named operations over registers, and the life of a command: issue, the checks, the
error entry, the successful completion, and reset (10_state.md R43, R44; 60_exceptions.md R184 to R188). -/

namespace Sys2Proof.Machine

open Sys2Proof.Config

/-! ### Words of a vector register and of P -/

/-- Word w of a vector register: position j is bit j mod 32 of word j div 32 (10_state.md R38). -/
def readWord {len : Nat} (v : BitVec len) (w : Nat) : Word := v.extractLsb' (32 * w) 32

/-- The register with word w replaced; bits above the storage width are ignored (20_memory.md R65). -/
def writeWord {len : Nat} (v : BitVec len) (w : Nat) (x : Word) : BitVec len :=
  (v &&& ~~~((BitVec.allOnes 32).setWidth len <<< (32 * w))) ||| x.setWidth len <<< (32 * w)

/-- P with row i replaced; there is no row at KMAX or above. -/
def writeRow (p : Matrix) (i : Nat) (x : BitVec RMAX) : Matrix := p.setIfInBounds i x

/-! ### Issue (10_state.md R43) -/

/-- An issue while idle: the word is latched unchecked, BUSY set, DONE and ERR cleared; nothing else changes. -/
def State.issue (s : State) (v : Word) : State := { s with cmdIf := v, status := s.status.issued }

/-- A write dropped because BUSY = 1: no effect but OVR (10_state.md R47). -/
def State.dropWrite (s : State) : State := { s with status := s.status.overrun }

/-- The write `s'` if idle, dropped if busy (10_state.md R47). -/
def State.whenIdle (s s' : State) : State := if s.status.busy then s.dropWrite else s'

/-! ### Completion (10_state.md R44) -/

/-- ERROR ENTRY: a failed completion writes STATUS and nothing else: no vector, no saved state, no change
of mode (60_exceptions.md R186). -/
def State.enterError (s : State) (e : CmdError) : State :=
  { s with status := s.status.failed s.cmdIf e }

/-- RECOVERY: the block has no return-from-error operation; the host clears DONE and ERR by W1C, ERRCODE
and LASTOP stay (60_exceptions.md R188). -/
def State.acknowledge (s : State) (v : Word) : State :=
  { s with status := s.status.clearWritten v }

/-- A successful completion: the STATUS of step 3 and 4 (10_state.md R44). -/
def State.succeed (s : State) : State := { s with status := s.status.succeeded s.cmdIf }

/-- The checks after ILLEGAL_COMMAND and NOP, in order: LEGAL, then KEY for a command that uses the key
(60_exceptions.md R184). -/
def State.failedCheck (s : State) (usesKey : Bool) : Option CmdError :=
  if !s.legal then some .invalidParameters
  else if usesKey && !s.keyMatches then some .invalidKey
  else none

/-- A command that draws nothing: the checks, then its effect or the error entry (10_state.md R44). -/
def complete (usesKey : Bool) (s effect : State) : Host.Outcome State Fault Refusal :=
  match s.failedCheck usesKey with
  | some e => .next (s.enterError e)
  | none => .next effect.succeed

/-- A command that draws: as `complete`, but once the checks pass it waits, BUSY still 1, while the random
source offers no word (20_memory.md R74, 70_reset_and_hazards.md R221). A failing check needs no word:
the checks run before any draw (60_exceptions.md R184). -/
def completeDrawing (usesKey : Bool) (s effect : State) : Host.Outcome State Fault Refusal :=
  match s.failedCheck usesKey with
  | some e => .next (s.enterError e)
  | none => if s.rndValid then .next effect.succeed else .next s

/-! ### Reset (70_reset_and_hazards.md R210, R211) -/

/-- Every register at its reset value; a command in flight is abandoned. What lies outside the block stays:
the inputs still to come, the random source, the numbering of free values. Log entries 16, 19. -/
def State.resetBlock (s : State) : State :=
  { State.reset with inputs := s.inputs, rndValid := s.rndValid, fresh := s.fresh }

end Sys2Proof.Machine
end

