-- ==== Sys2Proof/Machine/Bus.lean ====
section
/-! DEFINITION. The register map and the host's transactions (10_state.md R20 to R47, 20_memory.md R60 to R69). -/

namespace Sys2Proof.Machine

open Sys2Proof.Config

/-- What stands at an aligned offset of the aperture (10_state.md R20). `w` is a word of a vector register. -/
inductive Reg where
  | id | cap | ctrl | status | paramN | paramK | paramT | cmd | keyN | keyK | syndWt | decStat | searchCnt
  | m (w : Nat) | e (w : Nat) | c (w : Nat) | s (w : Nat) | d (w : Nat)
  | p (row w : Nat)
  | reserved
  deriving DecidableEq, Repr

/-- The offset `off` lies in the words in use of a register of `len` bits whose window begins at `lo`. -/
def inWords (off lo len : Nat) : Bool := decide (lo ≤ off) && decide (off < lo + 4 * wordsFor len)

/-- The register map (10_state.md R20, R37, R41). Unused words of a window and every offset not named are
reserved (20_memory.md R66). -/
def regAt (off : Nat) : Reg :=
  if off = 0x000 then .id
  else if off = 0x004 then .cap
  else if off = 0x008 then .ctrl
  else if off = 0x00C then .status
  else if off = 0x010 then .paramN
  else if off = 0x014 then .paramK
  else if off = 0x018 then .paramT
  else if off = 0x01C then .cmd
  else if off = 0x020 then .keyN
  else if off = 0x024 then .keyK
  else if off = 0x028 then .syndWt
  else if off = 0x02C then .decStat
  else if off = 0x030 then .searchCnt
  else if inWords off 0x100 KMAX then .m ((off - 0x100) / 4)
  else if inWords off 0x140 NMAX then .e ((off - 0x140) / 4)
  else if inWords off 0x180 NMAX then .c ((off - 0x180) / 4)
  else if inWords off 0x1C0 RMAX then .s ((off - 0x1C0) / 4)
  else if inWords off 0x200 KMAX then .d ((off - 0x200) / 4)
  else if decide (0x400 ≤ off) && decide (off < 0x400 + KMAX * PSTRIDE) then
    .p ((off - 0x400) / PSTRIDE) ((off - 0x400) % PSTRIDE / 4)
  else .reserved

/-- The current value of a register as a read shows it (20_memory.md R64): write-only fields and reserved
bits read 0. -/
def readView (st : State) : Reg → Word
  | .id => idWord
  | .cap => capWord
  | .ctrl => bitAt st.ie 0
  | .status => st.status.word
  | .paramN => st.paramN.setWidth 32
  | .paramK => st.paramK.setWidth 32
  | .paramT => st.paramT.setWidth 32
  | .cmd => 0
  | .keyN => st.keyN.setWidth 32
  | .keyK => st.keyK.setWidth 32
  | .syndWt => st.syndWt.setWidth 32
  | .decStat => st.decStat
  | .searchCnt => st.searchCnt.setWidth 32
  | .m w => readWord st.regM w
  | .e w => readWord st.regE w
  | .c w => readWord st.regC w
  | .s w => readWord st.regS w
  | .d w => readWord st.regD w
  | .p i w => readWord (row st.matP i) w
  | .reserved => 0

/-- BUSY_UNSTABLE, with the bits of the register that are not reserved (10_state.md R46, 20_memory.md R64);
none for a register that reads exactly while BUSY = 1. -/
def unstableBits : Reg → Option Word
  | .keyN | .keyK | .syndWt => some 0x0000FFFF
  | .searchCnt => some 0x000000FF
  | .decStat => some 0xFFFFFF03
  | .m _ | .e _ | .c _ | .s _ | .d _ | .p _ _ => some 0xFFFFFFFF
  | .id | .cap | .ctrl | .status | .paramN | .paramK | .paramT | .cmd | .reserved => none

/-- MemRead of a register (20_memory.md R64). No register changes (R67); a read of an unstable register while
busy is a free value of its own, which only uses up its number. Log entry 5. -/
def readReg (st : State) (r : Reg) : State :=
  match st.status.busy, unstableBits r with
  | true, some bits => { st with resp := some (.okRead (busyWord st.fresh &&& bits)), fresh := st.fresh + 1 }
  | _, _ => { st with resp := some (.okRead (readView st r)) }

/-- The effect of a write to CTRL (10_state.md R23): SRST = 1 resets and discards the written IE
(70_reset_and_hazards.md R211); it takes effect while busy too. -/
def writeCtrl (st : State) (v : Word) : State :=
  if v.getLsbD 1 then st.resetBlock else { st with ie := v.getLsbD 0 }

/-- The effect of a write to a register (20_memory.md R65). -/
def writeEffect (st : State) (r : Reg) (v : Word) : State :=
  match r with
  | .ctrl => writeCtrl st v
  | .status => st.acknowledge v
  | .cmd => st.whenIdle (st.issue v)
  | .paramN => st.whenIdle { st with paramN := v.setWidth 16 }
  | .paramK => st.whenIdle { st with paramK := v.setWidth 16 }
  | .paramT => st.whenIdle { st with paramT := v.setWidth 16 }
  | .keyN => st.whenIdle { st with keyN := v.setWidth 16 }
  | .keyK => st.whenIdle { st with keyK := v.setWidth 16 }
  | .m w => st.whenIdle { st with regM := writeWord st.regM w v }
  | .e w => st.whenIdle { st with regE := writeWord st.regE w v }
  | .c w => st.whenIdle { st with regC := writeWord st.regC w v }
  | .p i w => st.whenIdle { st with matP := writeRow st.matP i (writeWord (row st.matP i) w v) }
  | .id | .cap | .syndWt | .decStat | .searchCnt | .s _ | .d _ | .reserved => st

/-- MemWrite of a register: its effect and the response OKAY, always (20_memory.md R65). -/
def writeReg (st : State) (r : Reg) (v : Word) : State :=
  { writeEffect st r v with resp := some .okWrite }

/-- The size is 4 bytes and the offset a multiple of 4 (20_memory.md R62, R63). -/
def Txn.accepted (t : Txn) : Bool := t.size == 2 && t.addr.toNat % 4 == 0

/-- One host transaction: ERROR and no effect unless accepted (20_memory.md R62, R63; 60_exceptions.md R189). -/
def transact (st : State) (t : Txn) : State :=
  if t.accepted then
    if t.we then writeReg st (regAt t.addr.toNat) t.wdata else readReg st (regAt t.addr.toNat)
  else { st with resp := some .error }

/-- Byte `a` of the aperture as a host that addresses bytes would see it while idle: bus data is
little-endian (20_memory.md R69). -/
def apertureByte (st : State) (a : Nat) : Byte :=
  byteOfWord (readView st (regAt (a / 4 * 4))) (a % 4)

/-- rst_n = 0 at a rising edge: every register takes its reset value, and no transaction is acknowledged
(70_reset_and_hazards.md R210). -/
def hardwareReset (st : State) : State := { st.resetBlock with resp := none }

end Sys2Proof.Machine
end

