-- ==== Sys2Proof/Machine/CodeGenerator.lean ====
section
/-! DEFINITION. The systematic-matrix generator (40_code_generator.md). -/

namespace Sys2Proof.Machine

/-- GENP with the draw R given: P, KEY_N and KEY_K (40_code_generator.md R110). -/
def State.withKey (s : State) (bits : BitVec (s.k * (s.n - s.k))) : State :=
  { s with matP := keyOfDraw s.k (s.n - s.k) bits, keyN := s.paramN, keyK := s.paramK }

/-- GENP (40_code_generator.md R110): one draw. -/
def execGenp (s : State) : Host.Outcome State Fault Refusal :=
  completeDrawing false s { s.withKey (s.drawKey s.fresh) with fresh := s.fresh + 1 }

end Sys2Proof.Machine
end

