-- ==== Sys2Proof/Machine/Decapsulator.lean ====
section
/-! DEFINITION. The syndrome calculator and the search decoder (42_decapsulator.md). -/

namespace Sys2Proof.Machine

open Sys2Proof.Config

/-- mReceived = slice(C, 0, k) (42_decapsulator.md R150). -/
def State.received (s : State) : BitVec KMAX := slice KMAX s.regC 0 s.k

/-- parityReceived = slice(C, k, n) (42_decapsulator.md R150). -/
def State.parityReceived (s : State) : BitVec RMAX := slice RMAX s.regC s.k s.n

/-- The parity mismatch of a candidate message: (cand·P) XOR parityReceived (42_decapsulator.md R150, R154). -/
def State.mismatch (s : State) (cand : BitVec KMAX) : BitVec RMAX :=
  timesP s.matP cand s.k (s.n - s.k) ^^^ s.parityReceived

/-- The syndrome, the mismatch of the received word itself (42_decapsulator.md R150). -/
def State.syndrome (s : State) : BitVec RMAX := s.mismatch s.received

/-- S and SYND_WT as SYND and DECODE both write them (42_decapsulator.md R150, R162). -/
def State.withSyndrome (s : State) : State :=
  { s with regS := s.syndrome, syndWt := BitVec.ofNat 16 (popcount s.syndrome) }

/-- SYND (42_decapsulator.md R150). -/
def execSynd (s : State) : Host.Outcome State Fault Refusal := complete true s s.withSyndrome

/-- The working values of DECODE; they exist only inside its completion (10_state.md R48). -/
structure Search where
  /-- The best candidate so far. -/
  best : BitVec KMAX
  /-- Its parity error count. -/
  bestErr : Nat
  /-- The bit flipped in it; 0xFF for none. -/
  flip : Nat
  /-- The probes evaluated. -/
  cnt : Nat
  /-- A probe reached zero parity errors. -/
  early : Bool
  deriving DecidableEq, Repr

/-- Probe i's candidate: the received part with bit i flipped, in a fresh copy (42_decapsulator.md R155). -/
def State.candidate (s : State) (i : Nat) : BitVec KMAX := s.received ^^^ unit i

/-- Probe i's parity error count (42_decapsulator.md R154). -/
def State.probeErr (s : State) (i : Nat) : Nat := popcount (s.mismatch (s.candidate i))

/-- One probe: a strictly lower count replaces the best; a count of 0 ends the search (42_decapsulator.md R155). -/
def State.probe (s : State) (i : Nat) (a : Search) : Search :=
  let err := s.probeErr i
  if err < a.bestErr then
    { best := s.candidate i, bestErr := err, flip := i, cnt := a.cnt + 1, early := err == 0 }
  else { a with cnt := a.cnt + 1, early := err == 0 }

/-- The probe loop: at most `todo` probes, in ascending order from i, until one ends it (42_decapsulator.md R154). -/
def State.search (s : State) : (todo i : Nat) → Search → Search
  | 0, _, a => a
  | todo + 1, i, a =>
    if (s.probe i a).early then s.probe i a else s.search todo (i + 1) (s.probe i a)

/-- Before any probe the best candidate is the received part itself (42_decapsulator.md R157). -/
def State.noProbe (s : State) : Search :=
  { best := s.received, bestErr := popcount s.syndrome, flip := 0xFF, cnt := 0, early := false }

/-- The document's step 4: parityErrors <= t accepts directly (42_decapsulator.md R154). -/
def State.accepts (s : State) : Bool := decide (popcount s.syndrome ≤ s.t)

/-- The decision of DECODE: direct accept or the bounded search (42_decapsulator.md R154). -/
def State.decision (s : State) : Search :=
  if s.accepts then s.noProbe else s.search (min W s.k) 0 s.noProbe

/-- DEC_STAT = path | early << 1 | flip << 8 | bestErr << 16 (42_decapsulator.md R154, 10_state.md R35). -/
def decStatWord (path : Bool) (a : Search) : Word :=
  (BitVec.ofBool path).setWidth 32 ||| (BitVec.ofBool a.early).setWidth 32 <<< 1
    ||| BitVec.ofNat 32 a.flip <<< 8 ||| BitVec.ofNat 32 a.bestErr <<< 16

/-- D, DEC_STAT and SEARCH_CNT of a decision (42_decapsulator.md R154). -/
def State.withDecision (s : State) (path : Bool) (a : Search) : State :=
  { s with regD := a.best, decStat := decStatWord path a, searchCnt := BitVec.ofNat 8 a.cnt }

/-- DECODE (42_decapsulator.md R154). A wrong decode is not an error (R156). -/
def execDecode (s : State) : Host.Outcome State Fault Refusal :=
  complete true s (s.withSyndrome.withDecision (!s.accepts) s.decision)

end Sys2Proof.Machine
end

