-- ==== Sys2Proof/Machine/Encapsulator.lean ====
section
/-! DEFINITION. The message source, the error-pattern injector and the multiplier (41_encapsulator.md). -/

namespace Sys2Proof.Machine

open Sys2Proof.Config

/-- GENM (41_encapsulator.md R120): one draw. -/
def execGenm (s : State) : Host.Outcome State Fault Refusal :=
  completeDrawing false s { s with regM := s.drawMessage s.fresh, fresh := s.fresh + 1 }

/-- GENE (41_encapsulator.md R122): two draws. -/
def execGene (s : State) : Host.Outcome State Fault Refusal :=
  completeDrawing false s { s with regE := s.drawError s.fresh, fresh := s.fresh + 2 }

/-- MULG (41_encapsulator.md R125): C <- m·G with m = slice(M, 0, k). -/
def execMulg (s : State) : Host.Outcome State Fault Refusal :=
  complete true s { s with regC := timesG s.matP (slice KMAX s.regM 0 s.k) s.k (s.n - s.k) }

/-- XORE (41_encapsulator.md R127): C <- slice(C, 0, n) XOR slice(E, 0, n). -/
def execXore (s : State) : Host.Outcome State Fault Refusal :=
  complete false s { s with regC := slice NMAX s.regC 0 s.n ^^^ slice NMAX s.regE 0 s.n }

/-- ENCAP with its draws given: M, E and C = m·G + e (41_encapsulator.md R129). -/
def State.withCiphertext (s : State) (m : BitVec KMAX) (e : BitVec NMAX) : State :=
  { s with regM := m, regE := e, regC := timesG s.matP m s.k (s.n - s.k) ^^^ e }

/-- ENCAP (41_encapsulator.md R129): three draws, m first (92_eei_decisions.md D32). -/
def execEncap (s : State) : Host.Outcome State Fault Refusal :=
  completeDrawing true s
    { s.withCiphertext (s.drawMessage s.fresh) (s.drawError (s.fresh + 1)) with fresh := s.fresh + 3 }

end Sys2Proof.Machine
end

