-- ==== Sys2Proof/Machine/Dispatch.lean ====
section
/-! DEFINITION. The completion of a command, one arm per command (10_state.md R44). -/

namespace Sys2Proof.Machine

def exec (i : Instr) (s : State) : Host.Outcome State Fault Refusal :=
  match i with
  | .nop => Sys2Proof.Machine.execNop s
  | .genp => Sys2Proof.Machine.execGenp s
  | .genm => Sys2Proof.Machine.execGenm s
  | .gene => Sys2Proof.Machine.execGene s
  | .mulg => Sys2Proof.Machine.execMulg s
  | .xore => Sys2Proof.Machine.execXore s
  | .encap => Sys2Proof.Machine.execEncap s
  | .synd => Sys2Proof.Machine.execSynd s
  | .decode => Sys2Proof.Machine.execDecode s

end Sys2Proof.Machine
end

