-- ==== Sys2Proof/Machine/Fetch.lean ====
section
/-! DEFINITION. Where the engine takes its command from: the latched word CMD_IF (10_state.md R44, R48). -/

namespace Sys2Proof.Machine

/-- The command in flight, as the decoder reads it. It is decoded at completion, not at issue
(30_encoding.md R94, 10_state.md R43). -/
def State.inFlight (s : State) : Decoded := decodeWord s.cmdIf

/-- An illegal word completes with ILLEGAL_COMMAND and writes nothing but STATUS, whatever makes it
illegal (30_encoding.md R94, 43_control.md R171, 60_exceptions.md R184). -/
def completeIllegal (_ : IllegalWord) (s : State) : State := s.enterError .illegalCommand

/-- The command word v in flight, with the random source offering words and the engine's turn next: as an
issue leaves it (10_state.md R43, 20_memory.md R74). Log entry 7. -/
def State.commandInFlight (s : State) (v : Word) : State :=
  { s.issue v with inputs := .engine :: s.inputs, rndValid := true }

end Sys2Proof.Machine
end

