-- ==== Sys2Proof/Machine/Step.lean ====
section
/-! DEFINITION. One step of the block: the next input of its environment (20_memory.md R71), or the
engine's turn when none is left. Log entries 1, 7. -/

namespace Sys2Proof.Machine

/-- The engine's turn. Its only step is the completion of the command in CMD_IF while BUSY = 1
(10_state.md R44); an idle block does nothing (70_reset_and_hazards.md R210). -/
def engineTurn (s : State) : Host.Outcome State Fault Refusal :=
  if s.status.busy then
    match s.inFlight with
    | .instr i => exec i s
    | .illegal why => .next (completeIllegal why s)
  else .next s

/-- One step (00_scope.md R16): a host transaction, a hardware reset, a change of the random source, or the
engine's turn. -/
def step (s : State) : Host.Outcome State Fault Refusal :=
  match s.inputs with
  | [] => engineTurn s
  | .engine :: rest => engineTurn { s with inputs := rest }
  | .bus t :: rest => .next (transact { s with inputs := rest } t)
  | .hwReset :: rest => .next (hardwareReset { s with inputs := rest })
  | .rnd valid :: rest => .next { s with inputs := rest, rndValid := valid }

/-- The state with a command word of the opcode table in flight, so that the very next step completes it. -/
def State.withFetchWord (s : State) (nbits w : Nat) : State :=
  s.commandInFlight (BitVec.ofNat 32 (w % 2 ^ nbits))

end Sys2Proof.Machine
end

