-- ==== Sys2Proof/Machine/HostProgram.lean ====
section
/-! DEFINITION. The notation of host programs as lists of inputs (30_encoding.md R97, R98). A program's
control flow belongs to the host; here a WAIT is one resolved poll loop. Log entry 18. -/

namespace Sys2Proof.Machine

open Sys2Proof.Config

/-- `WR off, value`: MemWrite(off, 4, value) (30_encoding.md R97). -/
def wr (off : Nat) (v : Word) : Input := .bus { we := true, addr := BitVec.ofNat 12 off, size := 2, wdata := v }

/-- `RD off`: MemRead(off, 4) (30_encoding.md R97). -/
def rd (off : Nat) : Input := .bus { we := false, addr := BitVec.ofNat 12 off, size := 2, wdata := 0 }

/-- `CMD mnemonic` (30_encoding.md R97). -/
def cmd (i : Instr) : Input := wr 0x01C (encode i)

/-- `WAIT`, ended by a poll after the completion: `polls` reads of STATUS while busy, the engine's turn, and
the read that ends the loop (30_encoding.md R97). -/
def wait (polls : Nat) : List Input := List.replicate polls (rd 0x00C) ++ [.engine, rd 0x00C]

/-- `ACK`: clear DONE, ERR and OVR (30_encoding.md R97). -/
def ackAll : Input := wr 0x00C 0x0000000E

/-- `CFG n, k, t` (30_encoding.md R97). -/
def cfg (n k t : Word) : List Input := [wr 0x010 n, wr 0x014 k, wr 0x018 t]

/-- `SETKEY n, k` (30_encoding.md R97). -/
def setKey (n k : Word) : List Input := [wr 0x020 n, wr 0x024 k]

/-- `RUN mnemonic` = CMD; WAIT (30_encoding.md R97). -/
def runCmd (i : Instr) (polls : Nat) : List Input := cmd i :: wait polls

/-- Writes of consecutive words from an offset up (30_encoding.md R97, the symbolic names `M+w`, `P[i]+w`). -/
def wrWords (off : Nat) : List Word → List Input
  | [] => []
  | v :: vs => wr off v :: wrWords (off + 4) vs

/-- Reads of `count` consecutive words from an offset up. -/
def rdWords (off : Nat) : (count : Nat) → List Input
  | 0 => []
  | count + 1 => rd off :: rdWords (off + 4) count

/-- `keygen()` (30_encoding.md R98): CFG; RUN GENP; the host then reads STATUS, P and the key registers. -/
def keygen (n k t : Word) (polls : Nat) : List Input := cfg n k t ++ runCmd .genp polls

/-- `encapsulate(pk)` (30_encoding.md R98), the key's words given; C and M are read at the end. -/
def encapsulate (n k : Word) (keyWords : List Word) (polls : Nat) : List Input :=
  wrWords 0x400 keyWords ++ setKey n k ++ runCmd .encap polls
    ++ rdWords 0x180 (wordsFor NMAX) ++ rdWords 0x100 (wordsFor KMAX)

/-- `decapsulate(sk, c)` (30_encoding.md R98), the key's and the ciphertext's words given; D is read at the end. -/
def decapsulate (n k : Word) (keyWords ciphertext : List Word) (polls : Nat) : List Input :=
  wrWords 0x400 keyWords ++ setKey n k ++ wrWords 0x180 ciphertext ++ runCmd .decode polls
    ++ rdWords 0x200 (wordsFor KMAX)

end Sys2Proof.Machine
end

