-- ==== Sys2Proof/Safety.lean ====
section
/-! DEFINITION. The terms claims use: runs, the premises a claim names (70_reset_and_hazards.md R228, R230),
and what every state of a run keeps. -/

namespace Sys2Proof.Machine

open Sys2Proof.Config

/-! ### Runs -/

/-- t is s, or comes after s in the run from s. -/
inductive Reaches (s : State) : State → Prop where
  | here : Reaches s s
  | step {t u : State} : Reaches s t → Machine.step t = .next u → Reaches s u

/-- The end of a run: the host has performed its last operation and no command is in flight
(70_reset_and_hazards.md R228). DESIGN CHOICE: the rule does not say whether a hardware reset still to come
after the last operation keeps the run from having ended; here it does, as every input left does. Log
entry 22. -/
def State.ended (s : State) : Prop := s.inputs = [] ∧ s.status.busy = false

/-! ### The launch premises of 70_reset_and_hazards.md R230 -/

/-- CLEAN_ENTRY: a state with BUSY = 0 and OVR = 0; the reset state is one. -/
def State.cleanEntry (s : State) : Prop := s.status.busy = false ∧ s.status.ovr = false

/-- NOTHING_IN_FLIGHT. -/
def State.nothingInFlight (s : State) : Prop := s.status.busy = false

/-- NO_BUS_ERROR: no transaction of the run from s gets an ERROR response. -/
def State.noBusError (s : State) : Prop :=
  ∀ t, Reaches s t → ∀ x, t.inputs.head? = some (.bus x) → x.accepted = true

/-- NO_OVERRUN, of the state at the end of the run. -/
def State.noOverrun (s : State) : Prop := s.status.ovr = false

/-- NO_COMMAND_ERROR, of the state after a command. -/
def State.noCommandError (s : State) : Prop := s.status.err = false

/-- The commands that take random words (20_memory.md R74). -/
def draws : Instr → Bool
  | .genp | .genm | .gene | .encap => true
  | .nop | .mulg | .xore | .synd | .decode => false

/-- The commands that check the key (30_encoding.md R93). -/
def usesKey : Instr → Bool
  | .mulg | .encap | .synd | .decode => true
  | .nop | .genp | .genm | .gene | .xore => false

/-- The command in flight waits for the random source (20_memory.md R74). -/
def State.waiting (s : State) : Prop :=
  s.status.busy = true ∧ s.rndValid = false ∧
    ∃ i, s.inFlight = .instr i ∧ draws i = true ∧ s.failedCheck (usesKey i) = none

/-- RNG_LIVE: whenever a command waits, the random source offers words later in the run. -/
def State.rngLive (s : State) : Prop :=
  ∀ t, Reaches s t → t.waiting → ∃ u, Reaches t u ∧ u.rndValid = true

/-- The registers whose write is dropped while BUSY = 1 (10_state.md R47). -/
def inputReg : Reg → Bool
  | .paramN | .paramK | .paramT | .keyN | .keyK | .m _ | .e _ | .c _ | .p _ _ => true
  | .id | .cap | .ctrl | .status | .cmd | .syndWt | .decStat | .searchCnt | .s _ | .d _ | .reserved => false

/-- WAITS_RESPECTED: every read of a result register and every write of an input happens while BUSY = 0. -/
def State.waitsRespected (s : State) : Prop :=
  ∀ t, Reaches s t → ∀ x, t.inputs.head? = some (.bus x) → x.accepted = true →
    (x.we = false ∧ (unstableBits (regAt x.addr.toNat)).isSome = true ∨
      x.we = true ∧ inputReg (regAt x.addr.toNat) = true) →
    t.status.busy = false

/-! ### The terms of the rules, one position at a time -/

/-- Entry (i, j) of the matrix store, `P[i][j]` (00_scope.md R15). -/
def entry (p : Matrix) (i j : Nat) : Bool := (row p i).getLsbD j

/-- XOR over i in 0..k-1 of f i (00_scope.md R13). -/
def xorOver : Nat → (Nat → Bool) → Bool
  | 0, _ => false
  | k + 1, f => xorOver k f ^^ f k

/-- How many i in 0..b-1 have f i (00_scope.md R14). -/
def countOver : Nat → (Nat → Bool) → Nat
  | 0, _ => 0
  | b + 1, f => countOver b f + (f b).toNat

/-- (m·P)[j] over rows 0..k-1 (00_scope.md R13). -/
def productBit (p : Matrix) (k : Nat) (m : Nat → Bool) (j : Nat) : Bool :=
  xorOver k fun i => m i && entry p i j

/-- Position j of the parity mismatch of a candidate message: ((cand·P) XOR pR)[j] (42_decapsulator.md R154). -/
def State.mismatchBit (s : State) (cand : Nat → Bool) (j : Nat) : Bool :=
  productBit s.matP s.k cand j ^^ s.regC.getLsbD (s.k + j)

/-- The parity error count of the received word, pe (42_decapsulator.md R154). -/
def State.parityErrors (s : State) : Nat :=
  countOver (s.n - s.k) (s.mismatchBit fun i => s.regC.getLsbD i)

/-- The parity error count of probe a: the received word with information bit a flipped (42_decapsulator.md R154). -/
def State.probeErrors (s : State) (a : Nat) : Nat :=
  countOver (s.n - s.k) (s.mismatchBit fun i => s.regC.getLsbD i ^^ decide (i = a))

/-- STATUS after a successful completion (10_state.md R44, steps 3 and 4). -/
def State.okStatus (s : State) : Status :=
  { s.status with busy := false, done := true, err := false, errcode := 0, lastop := s.cmdIf.extractLsb' 0 8 }

/-- STATUS after a failed completion with an error code (60_exceptions.md R186). -/
def State.errStatus (s : State) (code : BitVec 4) : Status :=
  { s.status with busy := false, done := true, err := true, errcode := code, lastop := s.cmdIf.extractLsb' 0 8 }

/-- The command i fails with the code, and writes nothing but STATUS (60_exceptions.md R186). -/
def failsWith (i : Instr) (s : State) (code : BitVec 4) : Prop :=
  exec i s = .next { s with status := s.errStatus code }

/-- Every check of a command passes and, if it draws, the random source offers words. -/
def State.ready (s : State) (i : Instr) : Prop :=
  i = .nop ∨ s.legal = true ∧ (usesKey i = true → s.keyMatches = true) ∧ (draws i = true → s.rndValid = true)

/-- The state with command word v latched in CMD_IF (10_state.md R48). -/
def State.latched (s : State) (v : Word) : State := { s with cmdIf := v }

/-- The engine has its turn now, with `rest` to come (10_state.md R44). -/
def State.engineNext (s : State) (rest : List Input) : Prop :=
  s.inputs = .engine :: rest ∨ (s.inputs = [] ∧ rest = [])

/-! ### Offsets of the aperture -/

/-- The words in use of the host-writable registers whose writes are dropped while busy (10_state.md R47,
20_memory.md R65). -/
abbrev dataOffset (off : Nat) : Prop :=
  off % 4 = 0 ∧ (off ∈ [0x010, 0x014, 0x018, 0x020, 0x024] ∨ (0x100 ≤ off ∧ off ≤ 0x10C) ∨
    (0x140 ≤ off ∧ off ≤ 0x154) ∨ (0x180 ≤ off ∧ off ≤ 0x194) ∨ (0x400 ≤ off ∧ off ≤ 0x7FC))

/-- Read-only registers, with the windows of S and D (20_memory.md R65). -/
abbrev readOnlyOffset (off : Nat) : Prop :=
  off % 4 = 0 ∧ (off ∈ [0x000, 0x004, 0x028, 0x02C, 0x030] ∨ (0x1C0 ≤ off ∧ off ≤ 0x1FC) ∨
    (0x200 ≤ off ∧ off ≤ 0x23C))

/-- Reserved offsets and unused words of a window (20_memory.md R66). -/
abbrev reservedOffset (off : Nat) : Prop :=
  off % 4 = 0 ∧ ((0x034 ≤ off ∧ off ≤ 0x0FC) ∨ (0x240 ≤ off ∧ off ≤ 0x3FC) ∨ (0x800 ≤ off ∧ off ≤ 0xFFC) ∨
    (0x110 ≤ off ∧ off ≤ 0x13C) ∨ (0x158 ≤ off ∧ off ≤ 0x17C) ∨ (0x198 ≤ off ∧ off ≤ 0x1BC) ∨
    (0x1C8 ≤ off ∧ off ≤ 0x1FC) ∨ (0x210 ≤ off ∧ off ≤ 0x23C))

/-- BUSY_UNSTABLE: the words in use of M, E, C, S, D, P, KEY_N, KEY_K, SYND_WT, DEC_STAT and SEARCH_CNT
(20_memory.md R64). -/
abbrev unstableOffset (off : Nat) : Prop :=
  off % 4 = 0 ∧ (off ∈ [0x020, 0x024, 0x028, 0x02C, 0x030] ∨ (0x100 ≤ off ∧ off ≤ 0x10C) ∨
    (0x140 ≤ off ∧ off ≤ 0x154) ∨ (0x180 ≤ off ∧ off ≤ 0x194) ∨ (0x1C0 ≤ off ∧ off ≤ 0x1C4) ∨
    (0x200 ≤ off ∧ off ≤ 0x20C) ∨ (0x400 ≤ off ∧ off ≤ 0x7FC))

/-- Two states that agree on everything a command may read: the parameter set, the key's dimensions, the bits
below the valid length of each vector, and the key's entries (10_state.md R39, R40; 30_encoding.md R93). -/
def State.agreesOnInputs (s s' : State) : Prop :=
  s.paramN = s'.paramN ∧ s.paramK = s'.paramK ∧ s.paramT = s'.paramT ∧
  s.keyN = s'.keyN ∧ s.keyK = s'.keyK ∧ s.fresh = s'.fresh ∧
  (∀ j, j < s.k → s.regM.getLsbD j = s'.regM.getLsbD j) ∧
  (∀ j, j < s.n → s.regE.getLsbD j = s'.regE.getLsbD j) ∧
  (∀ j, j < s.n → s.regC.getLsbD j = s'.regC.getLsbD j) ∧
  (∀ i j, i < s.k → j < s.n - s.k → entry s.matP i j = entry s'.matP i j)

/-! ### What every step keeps -/

/-- STATUS tells one consistent story: DONE and ERR describe a completion, so BUSY is 0 (60_exceptions.md
R188, R191); a set ERR has a code; only the codes the block raises occur (R181, R183). -/
def State.statusCoherent (s : State) : Prop :=
  (s.status.done = true → s.status.busy = false) ∧
  (s.status.err = true → s.status.busy = false ∧ s.status.errcode ≠ 0) ∧
  (s.status.errcode = 0 ∨ s.status.errcode = 1 ∨ s.status.errcode = 3 ∨ s.status.errcode = 5)

/-- The result registers stay in the ranges the rules give: SYND_WT at most RMAX (42_decapsulator.md R152),
SEARCH_CNT at most W (10_state.md R36), DEC_STAT's reserved bits 7:2 zero, its BESTERR at most RMAX and
EARLY only with PATH (10_state.md R35). -/
def State.resultsInRange (s : State) : Prop :=
  s.syndWt.toNat ≤ RMAX ∧ s.searchCnt.toNat ≤ W ∧
  s.decStat.extractLsb' 2 6 = 0 ∧ (s.decStat.extractLsb' 16 16).toNat ≤ RMAX ∧
  (s.decStat.getLsbD 1 = true → s.decStat.getLsbD 0 = true)

end Sys2Proof.Machine
end

