-- ==== Sys2Proof/Certificates/Slice0/Obligations.lean ====
section
/-! DEFINITION. The statements for the provers. Each says which rule of spec/ it comes from. -/

open Sys2Proof Sys2Proof.Machine Sys2Proof.Config

/-! ### Encoding -/

/-- 30_encoding.md R92: the nine words, each at its command, and no other word decodes to a command. -/
def Obligations.NineWordsAndNoOtherDecode : Prop :=
  ∀ (v : Word) (i : Instr), decodeWord v = .instr i ↔
    v = match i with
      | .nop => 0x00000000#32
      | .genp => 0x00000001#32
      | .genm => 0x00000002#32
      | .gene => 0x00000003#32
      | .mulg => 0x00000004#32
      | .xore => 0x00000005#32
      | .encap => 0x00000006#32
      | .synd => 0x00000007#32
      | .decode => 0x00000008#32

/-- 30_encoding.md R90, R91: decode of encode is the command, on the word and on its four bytes, lowest first. -/
def Obligations.EncodedCommandDecodesBack : Prop :=
  ∀ i : Instr, i.wellFormed = true →
    decodeWord (encode i) = .instr i ∧ validWord (encode i) = true ∧
    decodeBytes [byteOfWord (encode i) 0, byteOfWord (encode i) 1, byteOfWord (encode i) 2,
      byteOfWord (encode i) 3] = some (.instr i)

/-- 30_encoding.md R94 and 43_control.md R171: a word is a command exactly when v[31:8] = 0 and v[7:0] <= 8;
any other word is illegal, and at the engine's turn it fails with ILLEGAL_COMMAND and writes nothing but STATUS.
(That the engine's turn stands in a list of inputs is the model's form, log entry 1, here and wherever `engineNext`
stands.) -/
def Obligations.InvalidWordFailsAsIllegalCommand : Prop :=
  ∀ v : Word,
    (v.extractLsb' 8 24 = 0 ∧ (v.extractLsb' 0 8).toNat ≤ 8 →
      ∃ i, decodeWord v = .instr i ∧ opcode i = v.extractLsb' 0 8) ∧
    (¬ (v.extractLsb' 8 24 = 0 ∧ (v.extractLsb' 0 8).toNat ≤ 8) →
      (∃ why, decodeWord v = .illegal why) ∧
      ∀ (s : State) (rest : List Input), s.engineNext rest → s.status.busy = true → s.cmdIf = v →
        step s = .next { s with
          inputs := rest
          status := { s.status with
            busy := false, done := true, err := true, errcode := 5, lastop := v.extractLsb' 0 8 } })

/-- 30_encoding.md R92, R95: the nine words of the opcode table, written out, read back; so does the encoding of every
command; reserved words do not. -/
def Obligations.TableWordsReadBack : Prop :=
  decodeTableWord 32 0 = some .nop ∧ decodeTableWord 32 1 = some .genp ∧ decodeTableWord 32 2 = some .genm ∧
  decodeTableWord 32 3 = some .gene ∧ decodeTableWord 32 4 = some .mulg ∧ decodeTableWord 32 5 = some .xore ∧
  decodeTableWord 32 6 = some .encap ∧ decodeTableWord 32 7 = some .synd ∧ decodeTableWord 32 8 = some .decode ∧
  (∀ i : Instr, decodeTableWord 32 (encode i).toNat = some i) ∧
  decodeTableWord 32 9 = none ∧ decodeTableWord 32 0x101 = none ∧ decodeTableWord 32 0xFF = none

/-! ### The engine's step -/

/-- 10_state.md R44: at the engine's turn, with a command in flight, the step is the completion of that command. When
that turn comes is the model's schedule (log entry 1). -/
def Obligations.EngineStepRunsTheDecodedCommand : Prop :=
  ∀ (s : State) (rest : List Input) (i : Instr), i.wellFormed = true → s.engineNext rest →
    s.status.busy = true → decodeWord s.cmdIf = .instr i → step s = exec i { s with inputs := rest }

/-- 10_state.md R49, 70_reset_and_hazards.md R210: an idle block does nothing at the engine's turn (log
entry 1: the turn may come at any time). -/
def Obligations.IdleEngineDoesNothing : Prop :=
  ∀ (s : State) (rest : List Input), s.engineNext rest → s.status.busy = false →
    step s = .next { s with inputs := rest }

/-- 70_reset_and_hazards.md R229: every bus transaction and every command word has a defined outcome, so no state
stops (log entry 17). -/
def Obligations.EveryStepHasANextState : Prop := ∀ s : State, ∃ t, step s = .next t

/-- 10_state.md R27 to R32, R44: with the random source live (the model's field
rndValid, log entry 4), the engine's turn completes whatever word is in flight. -/
def Obligations.LiveEngineTurnCompletes : Prop :=
  ∀ (s : State) (rest : List Input), s.engineNext rest → s.status.busy = true → s.rndValid = true →
    ∃ t, step s = .next t ∧ t.status.busy = false ∧ t.status.done = true ∧
      t.status.lastop = s.cmdIf.extractLsb' 0 8 ∧ t.status.ovr = s.status.ovr ∧
      (t.status.err = false ↔ t.status.errcode = 0) ∧ t.inputs = rest ∧ t.irq = s.ie

/-- 20_memory.md R74, 70_reset_and_hazards.md R221: once its checks pass, a drawing command waits, and nothing
changes, while the random source offers no word. The source is one bit of the model (log entry 4). -/
def Obligations.DrawingCommandWaitsForWords : Prop :=
  ∀ (s : State) (i : Instr), draws i = true → s.legal = true → (usesKey i = true → s.keyMatches = true) →
    s.rndValid = false → exec i s = .next s

/-! ### Checks and errors -/

/-- 00_scope.md R7: LEGAL is these five bounds. -/
def Obligations.LegalIsFiveBounds : Prop :=
  ∀ n k t : Nat, Machine.legal n k t = true ↔ 1 ≤ k ∧ k < n ∧ k ≤ 128 ∧ n - k ≤ 64 ∧ t ≤ n

/-- 60_exceptions.md R184, R186: ILLEGAL_COMMAND first; NOP passes; then INVALID_PARAMETERS; then INVALID_KEY for
the commands that use the key; the failed command writes nothing but STATUS; with every check passed it succeeds. -/
def Obligations.ChecksRunInOrder : Prop :=
  ∀ (s : State) (rest : List Input), s.engineNext rest → s.status.busy = true →
    (¬ (s.cmdIf.extractLsb' 8 24 = 0 ∧ (s.cmdIf.extractLsb' 0 8).toNat ≤ 8) →
      step s = .next { s with inputs := rest, status := s.errStatus 5 }) ∧
    (s.cmdIf = 0 → step s = .next { s with inputs := rest, status := s.okStatus }) ∧
    (∀ i, i ≠ .nop → s.cmdIf = encode i →
      (s.legal = false → step s = .next { s with inputs := rest, status := s.errStatus 1 }) ∧
      (s.legal = true → usesKey i = true → (s.keyN ≠ s.paramN ∨ s.keyK ≠ s.paramK) →
        step s = .next { s with inputs := rest, status := s.errStatus 3 }) ∧
      (s.legal = true → (usesKey i = true → s.keyN = s.paramN ∧ s.keyK = s.paramK) →
        (draws i = true → s.rndValid = true) →
        ∃ t, step s = .next t ∧ t.status = s.okStatus))

/-- 60_exceptions.md R185: the key check compares KEY_N with PARAM_N and KEY_K with PARAM_K and nothing else; with
KEY_N = KEY_K = 0, as reset leaves them, every key-using command fails under every legal parameter set. -/
def Obligations.KeyCheckComparesDimensionsOnly : Prop :=
  (State.reset.keyN = 0 ∧ State.reset.keyK = 0) ∧
  ∀ (s : State) (i : Instr), usesKey i = true → s.legal = true →
    (s.keyN ≠ s.paramN ∨ s.keyK ≠ s.paramK → failsWith i s 3) ∧
    (s.keyN = s.paramN → s.keyK = s.paramK → (draws i = true → s.rndValid = true) →
      ∀ p : Matrix, ∃ t, exec i { s with matP := p } = .next t ∧ t.status = s.okStatus) ∧
    (s.keyN = 0 → s.keyK = 0 → failsWith i s 3)

/-- 30_encoding.md R93, column "writes on success": each command changes only the registers its row lists, and
STATUS; of STATUS, OVR stays. -/
def Obligations.CommandsWriteOnlyTheirRegisters : Prop :=
  ∀ (i : Instr) (s t : State), exec i s = .next t →
    (t.ie = s.ie ∧ t.paramN = s.paramN ∧ t.paramK = s.paramK ∧ t.paramT = s.paramT ∧ t.cmdIf = s.cmdIf ∧
      t.status.ovr = s.status.ovr ∧ t.inputs = s.inputs ∧ t.rndValid = s.rndValid ∧ t.resp = s.resp) ∧
    (i ≠ .genp → t.matP = s.matP ∧ t.keyN = s.keyN ∧ t.keyK = s.keyK) ∧
    (i ≠ .genm → i ≠ .encap → t.regM = s.regM) ∧
    (i ≠ .gene → i ≠ .encap → t.regE = s.regE) ∧
    (i ≠ .mulg → i ≠ .xore → i ≠ .encap → t.regC = s.regC) ∧
    (i ≠ .synd → i ≠ .decode → t.regS = s.regS ∧ t.syndWt = s.syndWt) ∧
    (i ≠ .decode → t.regD = s.regD ∧ t.decStat = s.decStat ∧ t.searchCnt = s.searchCnt) ∧
    (draws i = false → t.fresh = s.fresh)

/-! ### The commands -/

/-- 43_control.md R170: NOP checks nothing and writes only the completion fields, whatever the parameter set. -/
def Obligations.NopOnlyCompletes : Prop :=
  encode .nop = 0x00000000#32 ∧
  (∀ s : State, exec .nop s = .next { s with
    status := { s.status with busy := false, done := true, err := false, errcode := 0,
                              lastop := s.cmdIf.extractLsb' 0 8 } }) ∧
  (∀ (s : State) (rest : List Input), s.inputs = wr 0x01C 0 :: rest → s.status.busy = true →
    step s = .next { s with inputs := rest, resp := some .okWrite, status := { s.status with ovr := true } }) ∧
  (∀ s : State, s.inputs = [wr 0x01C 0, .engine] → s.status.busy = false →
    ∃ u t, step s = .next u ∧ step u = .next t ∧ t.status.busy = false ∧ t.status.done = true ∧
      t.status.err = false ∧ t.status.errcode = 0 ∧ t.status.lastop = 0 ∧ t.irq = s.ie)

/-- 40_code_generator.md R110: GENP draws the whole store; its errors; its wait. It holds for every value of the draw.
The numbering of draws and the wait on rndValid are the model's (log entries 2, 3, 4). -/
def Obligations.GenpReplacesTheStore : Prop :=
  encode .genp = 0x00000001#32 ∧ ∀ s : State,
    (s.legal = false → failsWith .genp s 1) ∧
    (s.legal = true → s.rndValid = false → exec .genp s = .next s) ∧
    (s.legal = true → s.rndValid = true →
      ∃ (bits : BitVec (s.k * (s.n - s.k))) (p : Matrix),
        exec .genp s = .next { s with
          matP := p, keyN := s.paramN, keyK := s.paramK, fresh := s.fresh + 1, status := s.okStatus } ∧
        bits = drawBits s.fresh (s.k * (s.n - s.k)) ∧
        ∀ i j, entry p i j =
          (decide (i < s.k ∧ j < s.n - s.k) && bits.getLsbD (i * (s.n - s.k) + j)))

/-- 41_encapsulator.md R120: GENM. It holds for every value of the draw. The numbering of draws and the wait on
rndValid are the model's (log entries 2, 3, 4). -/
def Obligations.GenmDrawsTheMessage : Prop :=
  encode .genm = 0x00000002#32 ∧ ∀ s : State,
    (s.legal = false → failsWith .genm s 1) ∧
    (s.legal = true → s.rndValid = false → exec .genm s = .next s) ∧
    (s.legal = true → s.rndValid = true →
      ∃ m : BitVec KMAX,
        exec .genm s = .next { s with regM := m, fresh := s.fresh + 1, status := s.okStatus } ∧
        (∀ j, j < s.k → m.getLsbD j = (drawBits s.fresh s.k).getLsbD j) ∧
        (∀ j, s.k ≤ j → m.getLsbD j = false))

/-- 41_encapsulator.md R122: GENE places one subset of the information positions and one of the redundancy
positions, of the sizes of R121, and nothing else. Each subset is the shape of its own free draw, so every subset of
the size is possible (10_state.md R45, with SubsetDrawHasEveryShape). The numbering of draws, the wait on rndValid and
the shaping of a subset are the model's (log entries 2, 3, 4, 12). -/
def Obligations.GenePlacesTwoSubsets : Prop :=
  encode .gene = 0x00000003#32 ∧ ∀ s : State,
    (s.legal = false → failsWith .gene s 1) ∧
    (s.legal = true → s.rndValid = false → exec .gene s = .next s) ∧
    (s.legal = true → s.rndValid = true →
      ∃ e : BitVec NMAX,
        exec .gene s = .next { s with regE := e, fresh := s.fresh + 2, status := s.okStatus } ∧
        (∀ j, j < s.k → e.getLsbD j =
          (exactly (drawBits s.fresh KMAX) s.k (s.t - min s.t (s.n - s.k))).getLsbD j) ∧
        (∀ j, j < s.n - s.k → e.getLsbD (s.k + j) =
          (exactly (drawBits (s.fresh + 1) RMAX) (s.n - s.k) (min s.t (s.n - s.k))).getLsbD j) ∧
        countOver s.k (fun j => e.getLsbD j) = s.t - min s.t (s.n - s.k) ∧
        countOver (s.n - s.k) (fun j => e.getLsbD (s.k + j)) = min s.t (s.n - s.k) ∧
        (∀ j, s.n ≤ j → e.getLsbD j = false))

/-- 10_state.md R45: a subset draw has exactly the size asked for, whatever the raw draw, and every subset of the
size is the answer to some raw draw. The shaping is the model's (log entry 12). -/
def Obligations.SubsetDrawHasEveryShape : Prop :=
  ∀ (len b : Nat) (raw target : BitVec len) (need : Nat), b ≤ len → need ≤ b →
    (countOver b (fun j => (exactly raw b need).getLsbD j) = need ∧
      ∀ j, b ≤ j → (exactly raw b need).getLsbD j = false) ∧
    (countOver b (fun j => target.getLsbD j) = need → (∀ j, b ≤ j → target.getLsbD j = false) →
      ∃ raw' : BitVec len, exactly raw' b need = target)

/-- 41_encapsulator.md R125: MULG writes m ++ m·P; its errors. -/
def Obligations.MulgWritesTheCodeword : Prop :=
  encode .mulg = 0x00000004#32 ∧ ∀ s : State,
    (s.legal = false → failsWith .mulg s 1) ∧
    (s.legal = true → s.keyMatches = false → failsWith .mulg s 3) ∧
    (s.legal = true → s.keyMatches = true →
      ∃ c : BitVec NMAX,
        exec .mulg s = .next { s with regC := c, status := s.okStatus } ∧
        (∀ j, j < s.k → c.getLsbD j = s.regM.getLsbD j) ∧
        (∀ j, j < s.n - s.k → c.getLsbD (s.k + j) = productBit s.matP s.k (fun i => s.regM.getLsbD i) j) ∧
        (∀ j, s.n ≤ j → c.getLsbD j = false))

/-- 41_encapsulator.md R127: XORE adds E to C below n and clears C above; it needs no key. -/
def Obligations.XoreAddsTheErrorPattern : Prop :=
  encode .xore = 0x00000005#32 ∧ ∀ s : State,
    (s.legal = false → failsWith .xore s 1) ∧
    (s.legal = true →
      ∃ c : BitVec NMAX,
        exec .xore s = .next { s with regC := c, status := s.okStatus } ∧
        (∀ j, j < s.n → c.getLsbD j = (s.regC.getLsbD j ^^ s.regE.getLsbD j)) ∧
        (∀ j, s.n ≤ j → c.getLsbD j = false))

/-- 41_encapsulator.md R129: ENCAP draws m and e and writes M, E and C = m·G + e; its errors; its wait. m and
the two subsets of e are three draws of their own, in that order, so every value of their shape is possible (10_state.md
R45, with SubsetDrawHasEveryShape). The numbering of draws, the wait on rndValid and the shaping of a subset are the
model's (log entries 2, 3, 4, 12). -/
def Obligations.EncapWritesTheCiphertext : Prop :=
  encode .encap = 0x00000006#32 ∧ ∀ s : State,
    (s.legal = false → failsWith .encap s 1) ∧
    (s.legal = true → s.keyMatches = false → failsWith .encap s 3) ∧
    (s.legal = true → s.keyMatches = true → s.rndValid = false → exec .encap s = .next s) ∧
    (s.legal = true → s.keyMatches = true → s.rndValid = true →
      ∃ (m : BitVec KMAX) (e c : BitVec NMAX),
        exec .encap s = .next { s with
          regM := m, regE := e, regC := c, fresh := s.fresh + 3, status := s.okStatus } ∧
        (∀ j, j < s.k → m.getLsbD j = (drawBits s.fresh s.k).getLsbD j) ∧
        (∀ j, s.k ≤ j → m.getLsbD j = false) ∧
        (∀ j, j < s.k → e.getLsbD j =
          (exactly (drawBits (s.fresh + 1) KMAX) s.k (s.t - min s.t (s.n - s.k))).getLsbD j) ∧
        (∀ j, j < s.n - s.k → e.getLsbD (s.k + j) =
          (exactly (drawBits (s.fresh + 2) RMAX) (s.n - s.k) (min s.t (s.n - s.k))).getLsbD j) ∧
        countOver s.k (fun j => e.getLsbD j) = s.t - min s.t (s.n - s.k) ∧
        countOver (s.n - s.k) (fun j => e.getLsbD (s.k + j)) = min s.t (s.n - s.k) ∧
        (∀ j, s.n ≤ j → e.getLsbD j = false) ∧
        (∀ j, j < s.k → c.getLsbD j = (m.getLsbD j ^^ e.getLsbD j)) ∧
        (∀ j, j < s.n - s.k →
          c.getLsbD (s.k + j) = (productBit s.matP s.k (fun i => m.getLsbD i) j ^^ e.getLsbD (s.k + j))) ∧
        (∀ j, s.n ≤ j → c.getLsbD j = false))

/-- 42_decapsulator.md R150: SYND writes the mismatch and its weight; its errors. -/
def Obligations.SyndWritesTheSyndrome : Prop :=
  encode .synd = 0x00000007#32 ∧ ∀ s : State,
    (s.legal = false → failsWith .synd s 1) ∧
    (s.legal = true → s.keyMatches = false → failsWith .synd s 3) ∧
    (s.legal = true → s.keyMatches = true →
      ∃ (x : BitVec RMAX) (w : BitVec 16),
        exec .synd s = .next { s with regS := x, syndWt := w, status := s.okStatus } ∧
        (∀ j, j < s.n - s.k → x.getLsbD j =
          (productBit s.matP s.k (fun i => s.regC.getLsbD i) j ^^ s.regC.getLsbD (s.k + j))) ∧
        (∀ j, s.n - s.k ≤ j → x.getLsbD j = false) ∧
        w.toNat = countOver (s.n - s.k) (fun j => x.getLsbD j))

/-- 42_decapsulator.md R154, with R155 and R157: DECODE accepts directly when pe <= t; otherwise it probes positions
0, 1, ... up to min(W, k) - 1 until a probe has no parity error, and keeps the first probe with the lowest count, or
the received part itself when none is strictly below pe. -/
def Obligations.DecodeAcceptsOrSearches : Prop :=
  encode .decode = 0x00000008#32 ∧ ∀ s : State,
    (s.legal = false → failsWith .decode s 1) ∧
    (s.legal = true → s.keyMatches = false → failsWith .decode s 3) ∧
    (s.legal = true → s.keyMatches = true →
      ∃ (x : BitVec RMAX) (w : BitVec 16) (d : BitVec KMAX) (stat : Word) (cnt : BitVec 8),
        exec .decode s = .next { s with
          regS := x, syndWt := w, regD := d, decStat := stat, searchCnt := cnt, status := s.okStatus } ∧
        (∀ j, j < s.n - s.k → x.getLsbD j = s.mismatchBit (fun i => s.regC.getLsbD i) j) ∧
        (∀ j, s.n - s.k ≤ j → x.getLsbD j = false) ∧
        w.toNat = s.parityErrors ∧
        (∀ j, s.k ≤ j → d.getLsbD j = false) ∧
        stat.extractLsb' 2 6 = 0 ∧
        (s.parityErrors ≤ s.t →
          (∀ j, j < s.k → d.getLsbD j = s.regC.getLsbD j) ∧
          stat.getLsbD 0 = false ∧ stat.getLsbD 1 = false ∧ stat.extractLsb' 8 8 = 0xFF ∧
          (stat.extractLsb' 16 16).toNat = s.parityErrors ∧ cnt = 0) ∧
        (s.t < s.parityErrors →
          1 ≤ cnt.toNat ∧ cnt.toNat ≤ min 16 s.k ∧
          (∀ a, a + 1 < cnt.toNat → s.probeErrors a ≠ 0) ∧
          stat.getLsbD 0 = true ∧
          (stat.getLsbD 1 = true ↔ s.probeErrors (cnt.toNat - 1) = 0) ∧
          (stat.getLsbD 1 = false → cnt.toNat = min 16 s.k) ∧
          (((∀ a, a < cnt.toNat → s.parityErrors ≤ s.probeErrors a) ∧
              (∀ j, j < s.k → d.getLsbD j = s.regC.getLsbD j) ∧
              stat.extractLsb' 8 8 = 0xFF ∧ (stat.extractLsb' 16 16).toNat = s.parityErrors) ∨
            (∃ a, a < cnt.toNat ∧ s.probeErrors a < s.parityErrors ∧
              (∀ b, b < a → s.probeErrors a < s.probeErrors b) ∧
              (∀ b, b < cnt.toNat → s.probeErrors a ≤ s.probeErrors b) ∧
              (∀ j, j < s.k → d.getLsbD j = (s.regC.getLsbD j ^^ decide (j = a))) ∧
              (stat.extractLsb' 8 8).toNat = a ∧ (stat.extractLsb' 16 16).toNat = s.probeErrors a))))

/-! ### What follows for the code, the error and the ciphertext -/

/-- 40_code_generator.md R111: the first k positions of every codeword are the message, for any key. -/
def Obligations.CodewordBeginsWithTheMessage : Prop :=
  ∀ (p : Matrix) (m : BitVec KMAX) (k r j : Nat), k ≤ KMAX → r ≤ RMAX → j < k →
    (timesG p m k r).getLsbD j = m.getLsbD j

/-- 41_encapsulator.md R121: the error partition, and both subsets exist. -/
def Obligations.ErrorPartitionFits : Prop :=
  ∀ s : State, s.legal = true →
    s.errorsInRedundancy = min s.t (s.n - s.k) ∧ s.errorsInInfo = s.t - min s.t (s.n - s.k) ∧
    s.errorsInInfo ≤ s.k ∧ s.errorsInRedundancy ≤ s.n - s.k

/-- 41_encapsulator.md R123: the corner cases of GENE. -/
def Obligations.GeneCornerCases : Prop :=
  ∀ s u : State, s.legal = true → s.rndValid = true → exec .gene s = .next u →
    (s.t = 0 → u.regE = 0) ∧
    (s.t ≤ s.n - s.k → ∀ j, j < s.k → u.regE.getLsbD j = false) ∧
    (s.n - s.k ≤ s.t → ∀ j, s.k ≤ j → j < s.n → u.regE.getLsbD j = true) ∧
    (s.n - s.k < s.t → countOver s.k (fun j => u.regE.getLsbD j) = s.t - (s.n - s.k)) ∧
    (s.t = s.n → ∀ j, j < s.n → u.regE.getLsbD j = true) ∧
    (∀ j, s.n ≤ j → u.regE.getLsbD j = false)

/-- 41_encapsulator.md R124: after a successful GENE or ENCAP, E has weight exactly t, and all of it lies in the
redundancy part when t <= n - k. -/
def Obligations.ErrorWeightIsExactlyT : Prop :=
  ∀ (s u : State) (i : Instr), i = .gene ∨ i = .encap → s.ready i → exec i s = .next u →
    countOver s.n (fun j => u.regE.getLsbD j) = s.t ∧ countOver NMAX (fun j => u.regE.getLsbD j) = s.t ∧
    (s.t ≤ s.n - s.k → ∀ j, j < s.k → u.regE.getLsbD j = false)

/-- 41_encapsulator.md R126: the corner cases of MULG: the zero message, the rows of G, linearity, and what it does
not depend on. -/
def Obligations.MulgCornerCases : Prop :=
  ∀ s u : State, s.legal = true → s.keyMatches = true → exec .mulg s = .next u →
    ((∀ j, j < s.k → s.regM.getLsbD j = false) → u.regC = 0) ∧
    (∀ a, a < s.k → (∀ j, j < s.k → s.regM.getLsbD j = decide (j = a)) →
      (∀ j, j < s.k → u.regC.getLsbD j = decide (j = a)) ∧
      (∀ j, j < s.n - s.k → u.regC.getLsbD (s.k + j) = entry s.matP a j)) ∧
    (∀ (m : BitVec KMAX) (u₁ u₂ : State), exec .mulg { s with regM := m } = .next u₁ →
      exec .mulg { s with regM := s.regM ^^^ m } = .next u₂ → u₂.regC = u.regC ^^^ u₁.regC) ∧
    (∀ (m : BitVec KMAX) (p : Matrix) (u' : State),
      (∀ j, j < s.k → m.getLsbD j = s.regM.getLsbD j) →
      (∀ i j, i < s.k → j < s.n - s.k → entry p i j = entry s.matP i j) →
      exec .mulg { s with regM := m, matP := p } = .next u' → u'.regC = u.regC) ∧
    (∀ j, s.n ≤ j → u.regC.getLsbD j = false) ∧
    (∀ j, j < s.k → u.regC.getLsbD j = s.regM.getLsbD j)

/-- 41_encapsulator.md R128: E = 0 changes nothing below n; XORE twice restores C below n; any E is added. -/
def Obligations.XoreTwiceRestores : Prop :=
  ∀ s u : State, s.legal = true → exec .xore s = .next u →
    (s.regE = 0 → ∀ j, u.regC.getLsbD j = (decide (j < s.n) && s.regC.getLsbD j)) ∧
    (∃ w, exec .xore u = .next w ∧ ∀ j, j < s.n → w.regC.getLsbD j = s.regC.getLsbD j) ∧
    u.status.err = false

/-- 41_encapsulator.md R130: ENCAP leaves M, E and C as GENM; GENE; MULG; XORE would with the same draws: the
model gives both the same numbers of draws (log entries 2, 3); all five succeed; LASTOP differs; with a mismatched
key GENM and GENE still succeed and ENCAP writes nothing. -/
def Obligations.EncapEqualsItsParts : Prop :=
  ∀ s : State, s.legal = true → s.rndValid = true →
    (s.keyMatches = true →
      ∃ t₁ t₂ t₃ t₄ u : State,
        exec .genm (s.latched (encode .genm)) = .next t₁ ∧
        exec .gene (t₁.latched (encode .gene)) = .next t₂ ∧
        exec .mulg (t₂.latched (encode .mulg)) = .next t₃ ∧
        exec .xore (t₃.latched (encode .xore)) = .next t₄ ∧
        exec .encap (s.latched (encode .encap)) = .next u ∧
        t₁.status.err = false ∧ t₂.status.err = false ∧ t₃.status.err = false ∧ t₄.status.err = false ∧
        u.status.err = false ∧
        t₄.regM = u.regM ∧ t₄.regE = u.regE ∧ t₄.regC = u.regC ∧ t₄.fresh = u.fresh ∧
        t₄.status.lastop = 0x05 ∧ u.status.lastop = 0x06) ∧
    (s.keyMatches = false →
      ∃ t₁ t₂ : State,
        exec .genm s = .next t₁ ∧ t₁.status.err = false ∧
        exec .gene t₁ = .next t₂ ∧ t₂.status.err = false ∧
        failsWith .mulg t₂ 3 ∧ failsWith .encap s 3)

/-- 41_encapsulator.md R131: the structure of C after a successful ENCAP, or MULG then XORE. -/
def Obligations.CiphertextStructure : Prop :=
  ∀ s u : State, s.legal = true → s.keyMatches = true →
    (s.rndValid = true ∧ exec .encap s = .next u) ∨
      (∃ w, exec .mulg s = .next w ∧ exec .xore w = .next u) →
    (∀ j, j < s.k → u.regC.getLsbD j = (u.regM.getLsbD j ^^ u.regE.getLsbD j)) ∧
    (∀ j, j < s.n - s.k → u.regC.getLsbD (s.k + j) =
      (productBit s.matP s.k (fun i => u.regM.getLsbD i) j ^^ u.regE.getLsbD (s.k + j))) ∧
    (∀ j, s.n ≤ j → u.regC.getLsbD j = false) ∧
    ((∀ j, j < s.k → u.regE.getLsbD j = false) ∨
        (s.t ≤ s.n - s.k ∧ s.rndValid = true ∧ exec .encap s = .next u) →
      ∀ j, j < s.k → u.regC.getLsbD j = u.regM.getLsbD j)

/-! ### What follows for the decapsulator -/

/-- 42_decapsulator.md R151: the syndrome of (m ++ m·P) XOR e depends only on e. -/
def Obligations.SyndromeDependsOnlyOnTheError : Prop :=
  ∀ (s u : State) (m e : Nat → Bool), s.legal = true → s.keyMatches = true →
    (∀ j, j < s.k → s.regC.getLsbD j = (m j ^^ e j)) →
    (∀ j, j < s.n - s.k → s.regC.getLsbD (s.k + j) = (productBit s.matP s.k m j ^^ e (s.k + j))) →
    exec .synd s = .next u →
    (∀ j, j < s.n - s.k → u.regS.getLsbD j = (productBit s.matP s.k e j ^^ e (s.k + j))) ∧
    ((∀ j, j < s.n → e j = false) → u.regS = 0 ∧ u.syndWt = 0) ∧
    ((∀ j, j < s.k → e j = false) →
      (∀ j, j < s.n - s.k → u.regS.getLsbD j = e (s.k + j)) ∧ u.syndWt.toNat = countOver s.n e)

/-- 42_decapsulator.md R152: the weight is at most n - k, S is zero from n - k up, and C from n up is ignored. -/
def Obligations.SyndCornerCases : Prop :=
  ∀ s u : State, s.legal = true → s.keyMatches = true → exec .synd s = .next u →
    u.syndWt.toNat ≤ s.n - s.k ∧
    (∀ j, s.n - s.k ≤ j → u.regS.getLsbD j = false) ∧
    (∀ (c : BitVec NMAX) (u' : State), (∀ j, j < s.n → c.getLsbD j = s.regC.getLsbD j) →
      exec .synd { s with regC := c } = .next u' → u'.regS = u.regS ∧ u'.syndWt = u.syndWt)

/-- 42_decapsulator.md R153: a probe's parity error count is the weight of s XOR its row of P. -/
def Obligations.ProbeCountIsRowDistance : Prop :=
  ∀ (s : State) (a : Nat), s.legal = true → a < s.k →
    s.probeErr a = popcount (s.syndrome ^^^ slice RMAX (row s.matP a) 0 (s.n - s.k))

/-- 42_decapsulator.md R158: an error of weight at most t confined to the redundancy is accepted directly and the
message recovered; so with t <= n - k, ENCAP followed by DECODE gives D = M for every draw. -/
def Obligations.EncapThenDecodeRecoversTheMessage : Prop :=
  ∀ s : State, s.legal = true → s.keyMatches = true →
    (∀ (m e : Nat → Bool),
      (∀ j, j < s.k → s.regC.getLsbD j = m j) →
      (∀ j, j < s.n - s.k → s.regC.getLsbD (s.k + j) = (productBit s.matP s.k m j ^^ e (s.k + j))) →
      countOver (s.n - s.k) (fun j => e (s.k + j)) ≤ s.t →
      ∃ u, exec .decode s = .next u ∧ u.decStat.getLsbD 0 = false ∧
        u.syndWt.toNat = countOver (s.n - s.k) (fun j => e (s.k + j)) ∧
        (∀ j, j < s.k → u.regD.getLsbD j = m j) ∧ (∀ j, s.k ≤ j → u.regD.getLsbD j = false)) ∧
    (s.rndValid = true → s.t ≤ s.n - s.k →
      ∃ u v, exec .encap s = .next u ∧ exec .decode u = .next v ∧ v.regD = u.regM)

/-- 42_decapsulator.md R159: with t = 0 an error-free word is accepted with a zero count, and any other goes to the
search. -/
def Obligations.ZeroWeightBoundary : Prop :=
  ∀ s u : State, s.legal = true → s.keyMatches = true → s.t = 0 → exec .decode s = .next u →
    ((∀ j, j < s.n - s.k →
        s.regC.getLsbD (s.k + j) = productBit s.matP s.k (fun i => s.regC.getLsbD i) j) →
      (∀ j, j < s.k → u.regD.getLsbD j = s.regC.getLsbD j) ∧ (∀ j, s.k ≤ j → u.regD.getLsbD j = false) ∧
      u.syndWt = 0 ∧ u.decStat = 0x0000FF00 ∧ u.searchCnt = 0) ∧
    ((∃ j, j < s.n - s.k ∧
        s.regC.getLsbD (s.k + j) ≠ productBit s.matP s.k (fun i => s.regC.getLsbD i) j) →
      u.decStat.getLsbD 0 = true ∧ 1 ≤ u.searchCnt.toNat)

/-- 42_decapsulator.md R160: the limits of correction, with the exact condition for one information error. -/
def Obligations.LimitsOfCorrection : Prop :=
  ∀ (s u : State) (m e : Nat → Bool), s.legal = true → s.keyMatches = true →
    (∀ j, j < s.k → s.regC.getLsbD j = (m j ^^ e j)) →
    (∀ j, j < s.n - s.k → s.regC.getLsbD (s.k + j) = (productBit s.matP s.k m j ^^ e (s.k + j))) →
    exec .decode s = .next u →
    (∀ a b, a < s.k → b < s.k → u.regD.getLsbD a ≠ s.regC.getLsbD a → u.regD.getLsbD b ≠ s.regC.getLsbD b →
      a = b ∧ a < min 16 s.k) ∧
    (2 ≤ countOver s.k e → ∃ j, j < s.k ∧ u.regD.getLsbD j ≠ m j) ∧
    (∀ a, a < s.k → (∀ j, j < s.k → e j = decide (j = a)) →
      (min 16 s.k ≤ a → ∃ j, j < s.k ∧ u.regD.getLsbD j ≠ m j) ∧
      (a < min 16 s.k → (∀ j, j < s.k → u.regD.getLsbD j = m j) →
        s.t < s.parityErrors ∧ s.probeErrors a < s.parityErrors ∧
        (∀ b, b < a → s.probeErrors a < s.probeErrors b) ∧
        (∀ b, b < min 16 s.k → s.probeErrors a ≤ s.probeErrors b)) ∧
      (a < min 16 s.k → (∀ j, j < s.n - s.k → e (s.k + j) = false) →
        s.probeErrors a = 0 ∧
        (∀ b, b < min 16 s.k →
          s.probeErrors b = countOver (s.n - s.k) (fun j => entry s.matP b j ^^ entry s.matP a j)) ∧
        ((∀ j, j < s.k → u.regD.getLsbD j = m j) ↔
          s.t < countOver (s.n - s.k) (fun j => entry s.matP a j) ∧
          ∀ b, b < a → ∃ j, j < s.n - s.k ∧ entry s.matP b j ≠ entry s.matP a j)))

/-- 42_decapsulator.md R161: with t >= n - k DECODE accepts every C; with n - k < t, ENCAP then DECODE never gives
the message. -/
def Obligations.LargeWeightNeverSearches : Prop :=
  ∀ s : State, s.legal = true → s.keyMatches = true → s.n - s.k ≤ s.t →
    (∃ u, exec .decode s = .next u ∧ u.decStat.getLsbD 0 = false ∧ u.searchCnt = 0 ∧
      (∀ j, j < s.k → u.regD.getLsbD j = s.regC.getLsbD j)) ∧
    (s.n - s.k < s.t → s.rndValid = true →
      ∃ u v, exec .encap s = .next u ∧ exec .decode u = .next v ∧ v.regD ≠ u.regM)

/-- 42_decapsulator.md R162: DECODE leaves M and E and does not read them; S and SYND_WT as SYND writes them; D zero
from k up; its results are a function of C, P, PARAM and KEY; at most min(W, k) probes. -/
def Obligations.DecodeCornerCases : Prop :=
  ∀ s u : State, s.legal = true → s.keyMatches = true → exec .decode s = .next u →
    u.regM = s.regM ∧ u.regE = s.regE ∧
    (∃ w, exec .synd s = .next w ∧ u.regS = w.regS ∧ u.syndWt = w.syndWt) ∧
    (∀ j, s.k ≤ j → u.regD.getLsbD j = false) ∧
    u.searchCnt.toNat ≤ min 16 s.k ∧
    (∀ s' u' : State, s'.regC = s.regC → s'.matP = s.matP → s'.paramN = s.paramN → s'.paramK = s.paramK →
      s'.paramT = s.paramT → s'.keyN = s.keyN → s'.keyK = s.keyK → exec .decode s' = .next u' →
      u'.regS = u.regS ∧ u'.syndWt = u.syndWt ∧ u'.regD = u.regD ∧ u'.decStat = u.decStat ∧
        u'.searchCnt = u.searchCnt)

/-- 42_decapsulator.md R156, 60_exceptions.md R193: a DECODE that passes its checks completes with ERR = 0 and
ERRCODE = 0 whatever it decoded, and irq is as for any completion. -/
def Obligations.WrongDecodeIsNoError : Prop :=
  ∀ s : State, s.legal = true → s.keyMatches = true →
    ∃ u, exec .decode s = .next u ∧ u.status.err = false ∧ u.status.errcode = 0 ∧ u.status.done = true ∧
      u.irq = s.ie

/-- 10_state.md R39: what a command writes depends only on the positions below the valid lengths (and on the key),
and is zero at and above them. Equal draws are equal numbers of draws (log entry 3). -/
def Obligations.OnlyValidBitsMatter : Prop :=
  ∀ (i : Instr) (s s' u u' : State), i ≠ .nop → s.agreesOnInputs s' → s.ready i → s'.ready i →
    exec i s = .next u → exec i s' = .next u' →
    (i = .genp → u.matP = u'.matP ∧ u.keyN = u'.keyN ∧ u.keyK = u'.keyK) ∧
    (i = .genm ∨ i = .encap → u.regM = u'.regM ∧ ∀ j, s.k ≤ j → u.regM.getLsbD j = false) ∧
    (i = .gene ∨ i = .encap → u.regE = u'.regE ∧ ∀ j, s.n ≤ j → u.regE.getLsbD j = false) ∧
    (i = .mulg ∨ i = .xore ∨ i = .encap → u.regC = u'.regC ∧ ∀ j, s.n ≤ j → u.regC.getLsbD j = false) ∧
    (i = .synd ∨ i = .decode → u.regS = u'.regS ∧ u.syndWt = u'.syndWt ∧
      ∀ j, s.n - s.k ≤ j → u.regS.getLsbD j = false) ∧
    (i = .decode → u.regD = u'.regD ∧ u.decStat = u'.decStat ∧ u.searchCnt = u'.searchCnt ∧
      ∀ j, s.k ≤ j → u.regD.getLsbD j = false)

/-! ### The bus -/

/-- 20_memory.md R62, R63, 60_exceptions.md R189: a transaction of another size or at an offset that is no multiple of
4 gets ERROR and changes no state. -/
def Obligations.BusErrorHasNoEffect : Prop :=
  ∀ (s : State) (x : Txn) (rest : List Input), s.inputs = .bus x :: rest →
    x.size ≠ 2 ∨ x.addr.toNat % 4 ≠ 0 →
    step s = .next { s with inputs := rest, resp := some .error }

/-- 10_state.md R43: an issue latches the word, sets BUSY and clears DONE and ERR; while busy it is dropped and sets
OVR. -/
def Obligations.IssueLatchesOrIsDropped : Prop :=
  ∀ (s : State) (v : Word) (rest : List Input), s.inputs = wr 0x01C v :: rest →
    (s.status.busy = false → step s = .next { s with
      inputs := rest, resp := some .okWrite, cmdIf := v
      status := { s.status with busy := true, done := false, err := false } }) ∧
    (s.status.busy = true → step s = .next { s with
      inputs := rest, resp := some .okWrite, status := { s.status with ovr := true } })

/-- 10_state.md R47: while busy, a write to a data register is dropped and sets OVR; writes to read-only registers and
reserved offsets are ignored at all times; every such write answers OKAY. -/
def Obligations.BusyDataWriteIsDropped : Prop :=
  ∀ (s : State) (off : Nat) (v : Word) (rest : List Input), s.inputs = wr off v :: rest →
    (dataOffset off → s.status.busy = true → step s = .next { s with
      inputs := rest, resp := some .okWrite, status := { s.status with ovr := true } }) ∧
    (readOnlyOffset off ∨ reservedOffset off → step s = .next { s with
      inputs := rest, resp := some .okWrite })

/-- 20_memory.md R65, 10_state.md R24, R25, R38, R41, 30_encoding.md R96: an idle write stores the word, bits 15:0 for
a parameter or key register, and changes nothing else. -/
def Obligations.IdleWriteStoresTheWord : Prop :=
  ∀ (s : State) (off : Nat) (v : Word) (rest : List Input), s.inputs = wr off v :: rest → s.status.busy = false →
    (off = 0x010 → step s = .next { s with
      inputs := rest, resp := some .okWrite, paramN := v.extractLsb' 0 16 }) ∧
    (off = 0x014 → step s = .next { s with
      inputs := rest, resp := some .okWrite, paramK := v.extractLsb' 0 16 }) ∧
    (off = 0x018 → step s = .next { s with
      inputs := rest, resp := some .okWrite, paramT := v.extractLsb' 0 16 }) ∧
    (off = 0x020 → step s = .next { s with
      inputs := rest, resp := some .okWrite, keyN := v.extractLsb' 0 16 }) ∧
    (off = 0x024 → step s = .next { s with
      inputs := rest, resp := some .okWrite, keyK := v.extractLsb' 0 16 }) ∧
    (∀ w, w < 4 → off = 0x100 + 4 * w → ∃ m : BitVec KMAX,
      step s = .next { s with inputs := rest, resp := some .okWrite, regM := m } ∧
      ∀ j, j < 128 → m.getLsbD j = if j / 32 = w then v.getLsbD (j % 32) else s.regM.getLsbD j) ∧
    (∀ w, w < 6 → off = 0x140 + 4 * w → ∃ e : BitVec NMAX,
      step s = .next { s with inputs := rest, resp := some .okWrite, regE := e } ∧
      ∀ j, j < 192 → e.getLsbD j = if j / 32 = w then v.getLsbD (j % 32) else s.regE.getLsbD j) ∧
    (∀ w, w < 6 → off = 0x180 + 4 * w → ∃ c : BitVec NMAX,
      step s = .next { s with inputs := rest, resp := some .okWrite, regC := c } ∧
      ∀ j, j < 192 → c.getLsbD j = if j / 32 = w then v.getLsbD (j % 32) else s.regC.getLsbD j) ∧
    (∀ a w, a < 128 → w < 2 → off = 0x400 + 8 * a + 4 * w → ∃ p : Matrix,
      step s = .next { s with inputs := rest, resp := some .okWrite, matP := p } ∧
      ∀ i j, j < 64 → entry p i j =
        if i = a ∧ j / 32 = w then v.getLsbD (j % 32) else entry s.matP i j)

/-- 20_memory.md R64, 10_state.md R26, R38, R41, R46: what an accepted read answers. It changes no register; only the
numbering of free values advances on a read of an unstable register while busy (the model's, log entries 3, 5). -/
def Obligations.ReadAnswersTheRegisterMap : Prop :=
  ∀ (s : State) (off : Nat) (rest : List Input), s.inputs = rd off :: rest → off % 4 = 0 → off < 0x1000 →
    (s.status.busy = true → unstableOffset off → ∃ x : Word,
      step s = .next { s with inputs := rest, resp := some (.okRead x), fresh := s.fresh + 1 } ∧
      (off = 0x020 ∨ off = 0x024 ∨ off = 0x028 → x.extractLsb' 16 16 = 0) ∧
      (off = 0x02C → x.extractLsb' 2 6 = 0) ∧ (off = 0x030 → x.extractLsb' 8 24 = 0)) ∧
    (s.status.busy = false ∨ ¬ unstableOffset off → ∃ x : Word,
      step s = .next { s with inputs := rest, resp := some (.okRead x) } ∧
      (off = 0x000 → x = 0x47463253#32) ∧ (off = 0x004 → x = 0x00104080#32) ∧
      (off = 0x008 → x = if s.ie then 1 else 0) ∧
      (off = 0x00C → x = s.status.word) ∧
      (off = 0x010 → x.toNat = s.paramN.toNat) ∧ (off = 0x014 → x.toNat = s.paramK.toNat) ∧
      (off = 0x018 → x.toNat = s.paramT.toNat) ∧ (off = 0x01C → x = 0) ∧
      (off = 0x020 → x.toNat = s.keyN.toNat) ∧ (off = 0x024 → x.toNat = s.keyK.toNat) ∧
      (off = 0x028 → x.toNat = s.syndWt.toNat) ∧ (off = 0x02C → x = s.decStat) ∧
      (off = 0x030 → x.toNat = s.searchCnt.toNat) ∧
      (∀ w b, w < 4 → b < 32 → off = 0x100 + 4 * w → x.getLsbD b = s.regM.getLsbD (32 * w + b)) ∧
      (∀ w b, w < 6 → b < 32 → off = 0x140 + 4 * w → x.getLsbD b = s.regE.getLsbD (32 * w + b)) ∧
      (∀ w b, w < 6 → b < 32 → off = 0x180 + 4 * w → x.getLsbD b = s.regC.getLsbD (32 * w + b)) ∧
      (∀ w b, w < 2 → b < 32 → off = 0x1C0 + 4 * w → x.getLsbD b = s.regS.getLsbD (32 * w + b)) ∧
      (∀ w b, w < 4 → b < 32 → off = 0x200 + 4 * w → x.getLsbD b = s.regD.getLsbD (32 * w + b)) ∧
      (∀ a w b, a < 128 → w < 2 → b < 32 → off = 0x400 + 8 * a + 4 * w →
        x.getLsbD b = entry s.matP a (32 * w + b)) ∧
      (reservedOffset off → x = 0))

/-- 10_state.md R26: the layout of STATUS, and what a write to it clears, at any time. -/
def Obligations.StatusLayoutAndClearing : Prop :=
  State.reset.status.word = 0 ∧
  (∀ (f : Status) (b : Nat), f.word.getLsbD b =
    if b = 0 then f.busy else if b = 1 then f.done else if b = 2 then f.err else if b = 3 then f.ovr
    else if 8 ≤ b ∧ b ≤ 11 then f.errcode.getLsbD (b - 8)
    else if 16 ≤ b ∧ b ≤ 23 then f.lastop.getLsbD (b - 16) else false) ∧
  (∀ (s : State) (v : Word) (rest : List Input), s.inputs = wr 0x00C v :: rest →
    step s = .next { s with
      inputs := rest, resp := some .okWrite
      status := { s.status with
        done := if v.getLsbD 1 then false else s.status.done
        err := if v.getLsbD 2 then false else s.status.err
        ovr := if v.getLsbD 3 then false else s.status.ovr } })

/-- 10_state.md R23, 70_reset_and_hazards.md R211: a write to CTRL stores IE, or with SRST = 1 resets every register
and discards the written IE; it takes effect while busy too. That the model's own fields inputs, rndValid and
fresh outlast the reset is log entry 19. -/
def Obligations.ControlWriteStoresIeOrResets : Prop :=
  ∀ (s : State) (v : Word) (rest : List Input), s.inputs = wr 0x008 v :: rest →
    (v.getLsbD 1 = false → step s = .next { s with
      inputs := rest, resp := some .okWrite, ie := v.getLsbD 0 }) ∧
    (v.getLsbD 1 = true → step s = .next { State.reset with
      inputs := rest, resp := some .okWrite, rndValid := s.rndValid, fresh := s.fresh })

/-- 70_reset_and_hazards.md R210, 10_state.md R20: hardware reset puts every register at zero, abandons the command in
flight, and leaves irq low. The inputs to come stay (log entries 16, 19). -/
def Obligations.HardwareResetClearsEverything : Prop :=
  ∀ (s : State) (rest : List Input), s.inputs = .hwReset :: rest →
    ∃ t, step s = .next t ∧ t.ie = false ∧ t.status.word = 0 ∧ t.paramN = 0 ∧ t.paramK = 0 ∧ t.paramT = 0 ∧
      t.keyN = 0 ∧ t.keyK = 0 ∧ t.syndWt = 0 ∧ t.decStat = 0 ∧ t.searchCnt = 0 ∧ t.cmdIf = 0 ∧
      t.regM = 0 ∧ t.regE = 0 ∧ t.regC = 0 ∧ t.regS = 0 ∧ t.regD = 0 ∧ (∀ i j, entry t.matP i j = false) ∧
      t.irq = false ∧ t.status.busy = false ∧ t.inputs = rest

/-- 70_reset_and_hazards.md R212: right after reset every command but NOP, once issued, fails with INVALID_PARAMETERS;
under a legal parameter set every key-using command fails with INVALID_KEY. The completion is that of the state the issue
leaves (10_state.md R43), so LASTOP is the command's own opcode. -/
def Obligations.ResetStateRefusesCommands : Prop :=
  (∀ i, i ≠ .nop → failsWith i (State.reset.issue (encode i)) 1) ∧
  (∀ (i : Instr) (n k t : Half), usesKey i = true → Machine.legal n.toNat k.toNat t.toNat = true →
    failsWith i (State.issue { State.reset with paramN := n, paramK := k, paramT := t } (encode i)) 3) ∧
  readView State.reset (regAt 0x00C) = 0 ∧ readView State.reset (regAt 0x000) = 0x47463253#32 ∧
  readView State.reset (regAt 0x004) = 0x00104080#32

/-- 20_memory.md R69: byte q of the window of M, E, C, S or D, or of a row of P, holds positions 8q .. 8q+7, lowest
first. -/
def Obligations.WindowBytesAreLittleEndian : Prop :=
  ∀ (s : State) (q b : Nat), b < 8 →
    (q < 16 → (apertureByte s (0x100 + q)).getLsbD b = s.regM.getLsbD (8 * q + b)) ∧
    (q < 24 → (apertureByte s (0x140 + q)).getLsbD b = s.regE.getLsbD (8 * q + b)) ∧
    (q < 24 → (apertureByte s (0x180 + q)).getLsbD b = s.regC.getLsbD (8 * q + b)) ∧
    (q < 8 → (apertureByte s (0x1C0 + q)).getLsbD b = s.regS.getLsbD (8 * q + b)) ∧
    (q < 16 → (apertureByte s (0x200 + q)).getLsbD b = s.regD.getLsbD (8 * q + b)) ∧
    (q < 1024 → (apertureByte s (0x400 + q)).getLsbD b = entry s.matP (q / 8) (8 * (q % 8) + b))

/-- 40_code_generator.md R115: a word of P reads back as written, and no other word of P changes. -/
def Obligations.KeyWordReadsBack : Prop :=
  ∀ (s : State) (off off' : Nat) (v : Word) (rest : List Input), s.status.busy = false →
    0x400 ≤ off → off ≤ 0x7FC → off % 4 = 0 → 0x400 ≤ off' → off' ≤ 0x7FC → off' % 4 = 0 →
    s.inputs = wr off v :: rd off' :: rest →
    ∃ u t, step s = .next u ∧ step u = .next t ∧ t.inputs = rest ∧
      t.resp = some (.okRead (if off = off' then v else readView s (regAt off')))

/-- 60_exceptions.md R190: irq is CTRL.IE AND STATUS.DONE; an issue and a clear of DONE lower it, an overrun leaves it. -/
def Obligations.IrqIsEnableAndDone : Prop :=
  (∀ s : State, s.irq = (s.ie && s.status.done)) ∧ State.reset.irq = false ∧
  (∀ (s t : State) (v : Word) (rest : List Input), s.inputs = wr 0x01C v :: rest → step s = .next t →
    t.irq = (s.irq && s.status.busy)) ∧
  (∀ (s t : State) (v : Word) (rest : List Input), s.inputs = wr 0x00C v :: rest → step s = .next t →
    t.irq = (s.irq && !v.getLsbD 1))

/-- 60_exceptions.md R192: a host transaction in the completing cycle comes first. Here the transaction and the
engine's turn are the next two inputs (log entry 1). A command or data write is dropped, a read sees the state before the
completion, an acknowledgement does not hide it, and a soft reset prevents it. That the model's own fields rndValid and
fresh outlast the soft reset is log entry 19. -/
def Obligations.HostFirstThenCompletion : Prop :=
  ∀ (s : State) (x : Txn) (rest : List Input), s.inputs = .bus x :: .engine :: rest → s.status.busy = true →
    s.rndValid = true →
    ∃ u t, step s = .next u ∧ step u = .next t ∧
      ((∃ off v, (off = 0x01C ∨ dataOffset off) ∧ Input.bus x = wr off v) →
        u = { s with
          inputs := .engine :: rest, resp := some .okWrite, status := { s.status with ovr := true } } ∧
        t.status.ovr = true ∧ t.status.busy = false ∧ t.status.lastop = s.cmdIf.extractLsb' 0 8) ∧
      ((∃ v, Input.bus x = wr 0x00C v) → t.status.done = true) ∧
      (x.we = false → { u with inputs := s.inputs, resp := s.resp, fresh := s.fresh } = s ∧ t.status.done = true) ∧
      ((∃ v : Word, v.getLsbD 1 = true ∧ Input.bus x = wr 0x008 v) →
        t = { State.reset with inputs := rest, resp := some .okWrite, rndValid := true, fresh := s.fresh })

/-! ### Over whole runs -/

/-- 40_code_generator.md R112: the key changes only through a completing GENP, a host write to it while idle, or
reset. -/
def Obligations.KeyChangesOnlyByGenpWriteOrReset : Prop :=
  ∀ s t : State, step s = .next t → t.matP ≠ s.matP ∨ t.keyN ≠ s.keyN ∨ t.keyK ≠ s.keyK →
    (s.status.busy = true ∧ decodeWord s.cmdIf = .instr .genp ∧ ∃ rest, s.engineNext rest) ∨
    (∃ rest, s.inputs = .hwReset :: rest) ∨
    (∃ v rest, s.inputs = wr 0x008 v :: rest ∧ v.getLsbD 1 = true) ∨
    (s.status.busy = false ∧ ∃ off v rest, s.inputs = wr off v :: rest ∧
      (off = 0x020 ∨ off = 0x024 ∨ 0x400 ≤ off ∧ off ≤ 0x7FC))

/-- 20_memory.md R67: no read changes any register of the block. -/
def Obligations.ReadsChangeNoRegister : Prop :=
  ∀ (s t : State) (x : Txn) (rest : List Input), s.inputs = .bus x :: rest → x.we = false → step s = .next t →
    { t with inputs := s.inputs, resp := s.resp, fresh := s.fresh } = s

/-- 60_exceptions.md R181, R183, R188, R191: every step keeps STATUS coherent. -/
def Obligations.StepKeepsStatusCoherent : Prop :=
  ∀ s t : State, s.statusCoherent → step s = .next t → t.statusCoherent

/-- The reset state is coherent. -/
def Obligations.ResetIsStatusCoherent : Prop := State.reset.statusCoherent

/-- 10_state.md R34 to R36, 42_decapsulator.md R152, R155: every step keeps the result registers in range. -/
def Obligations.StepKeepsResultsInRange : Prop :=
  ∀ s t : State, s.resultsInRange → step s = .next t → t.resultsInRange

/-- The reset state's results are in range. -/
def Obligations.ResetResultsInRange : Prop := State.reset.resultsInRange
end

