-- ==== Sys2Proof/Laws/State.lean ====
section
/-! SUPPORT. What each update of STATUS and of State does to each field, true by rfl. -/

namespace Sys2Proof.Machine

open Sys2Proof.Config

/-! ### Status.issued -/

@[simp] theorem Status.issued_busy (f : Status) : (f.issued).busy = true := rfl
@[simp] theorem Status.issued_done (f : Status) : (f.issued).done = false := rfl
@[simp] theorem Status.issued_err (f : Status) : (f.issued).err = false := rfl
@[simp] theorem Status.issued_ovr (f : Status) : (f.issued).ovr = f.ovr := rfl
@[simp] theorem Status.issued_errcode (f : Status) : (f.issued).errcode = f.errcode := rfl
@[simp] theorem Status.issued_lastop (f : Status) : (f.issued).lastop = f.lastop := rfl

/-! ### Status.overrun -/

@[simp] theorem Status.overrun_busy (f : Status) : (f.overrun).busy = f.busy := rfl
@[simp] theorem Status.overrun_done (f : Status) : (f.overrun).done = f.done := rfl
@[simp] theorem Status.overrun_err (f : Status) : (f.overrun).err = f.err := rfl
@[simp] theorem Status.overrun_ovr (f : Status) : (f.overrun).ovr = true := rfl
@[simp] theorem Status.overrun_errcode (f : Status) : (f.overrun).errcode = f.errcode := rfl
@[simp] theorem Status.overrun_lastop (f : Status) : (f.overrun).lastop = f.lastop := rfl

/-! ### Status.succeeded -/

@[simp] theorem Status.succeeded_busy (f : Status) (v : Word) : (f.succeeded v).busy = false := rfl
@[simp] theorem Status.succeeded_done (f : Status) (v : Word) : (f.succeeded v).done = true := rfl
@[simp] theorem Status.succeeded_err (f : Status) (v : Word) : (f.succeeded v).err = false := rfl
@[simp] theorem Status.succeeded_ovr (f : Status) (v : Word) : (f.succeeded v).ovr = f.ovr := rfl
@[simp] theorem Status.succeeded_errcode (f : Status) (v : Word) : (f.succeeded v).errcode = 0 := rfl
@[simp] theorem Status.succeeded_lastop (f : Status) (v : Word) : (f.succeeded v).lastop = v.extractLsb' 0 8 := rfl

/-! ### Status.failed -/

@[simp] theorem Status.failed_busy (f : Status) (v : Word) (e : CmdError) : (f.failed v e).busy = false := rfl
@[simp] theorem Status.failed_done (f : Status) (v : Word) (e : CmdError) : (f.failed v e).done = true := rfl
@[simp] theorem Status.failed_err (f : Status) (v : Word) (e : CmdError) : (f.failed v e).err = true := rfl
@[simp] theorem Status.failed_ovr (f : Status) (v : Word) (e : CmdError) : (f.failed v e).ovr = f.ovr := rfl
@[simp] theorem Status.failed_errcode (f : Status) (v : Word) (e : CmdError) : (f.failed v e).errcode = e.code := rfl
@[simp] theorem Status.failed_lastop (f : Status) (v : Word) (e : CmdError) : (f.failed v e).lastop = v.extractLsb' 0 8 := rfl

/-! ### Status.clearWritten -/

@[simp] theorem Status.clearWritten_busy (f : Status) (v : Word) : (f.clearWritten v).busy = f.busy := rfl
@[simp] theorem Status.clearWritten_done (f : Status) (v : Word) : (f.clearWritten v).done = (f.done && !v.getLsbD 1) := rfl
@[simp] theorem Status.clearWritten_err (f : Status) (v : Word) : (f.clearWritten v).err = (f.err && !v.getLsbD 2) := rfl
@[simp] theorem Status.clearWritten_ovr (f : Status) (v : Word) : (f.clearWritten v).ovr = (f.ovr && !v.getLsbD 3) := rfl
@[simp] theorem Status.clearWritten_errcode (f : Status) (v : Word) : (f.clearWritten v).errcode = f.errcode := rfl
@[simp] theorem Status.clearWritten_lastop (f : Status) (v : Word) : (f.clearWritten v).lastop = f.lastop := rfl

/-! ### State.issue -/

@[simp] theorem State.issue_ie (s : State) (v : Word) : (s.issue v).ie = s.ie := rfl
@[simp] theorem State.issue_status (s : State) (v : Word) : (s.issue v).status = s.status.issued := rfl
@[simp] theorem State.issue_paramN (s : State) (v : Word) : (s.issue v).paramN = s.paramN := rfl
@[simp] theorem State.issue_paramK (s : State) (v : Word) : (s.issue v).paramK = s.paramK := rfl
@[simp] theorem State.issue_paramT (s : State) (v : Word) : (s.issue v).paramT = s.paramT := rfl
@[simp] theorem State.issue_keyN (s : State) (v : Word) : (s.issue v).keyN = s.keyN := rfl
@[simp] theorem State.issue_keyK (s : State) (v : Word) : (s.issue v).keyK = s.keyK := rfl
@[simp] theorem State.issue_syndWt (s : State) (v : Word) : (s.issue v).syndWt = s.syndWt := rfl
@[simp] theorem State.issue_decStat (s : State) (v : Word) : (s.issue v).decStat = s.decStat := rfl
@[simp] theorem State.issue_searchCnt (s : State) (v : Word) : (s.issue v).searchCnt = s.searchCnt := rfl
@[simp] theorem State.issue_regM (s : State) (v : Word) : (s.issue v).regM = s.regM := rfl
@[simp] theorem State.issue_regE (s : State) (v : Word) : (s.issue v).regE = s.regE := rfl
@[simp] theorem State.issue_regC (s : State) (v : Word) : (s.issue v).regC = s.regC := rfl
@[simp] theorem State.issue_regS (s : State) (v : Word) : (s.issue v).regS = s.regS := rfl
@[simp] theorem State.issue_regD (s : State) (v : Word) : (s.issue v).regD = s.regD := rfl
@[simp] theorem State.issue_matP (s : State) (v : Word) : (s.issue v).matP = s.matP := rfl
@[simp] theorem State.issue_cmdIf (s : State) (v : Word) : (s.issue v).cmdIf = v := rfl
@[simp] theorem State.issue_inputs (s : State) (v : Word) : (s.issue v).inputs = s.inputs := rfl
@[simp] theorem State.issue_rndValid (s : State) (v : Word) : (s.issue v).rndValid = s.rndValid := rfl
@[simp] theorem State.issue_fresh (s : State) (v : Word) : (s.issue v).fresh = s.fresh := rfl
@[simp] theorem State.issue_resp (s : State) (v : Word) : (s.issue v).resp = s.resp := rfl

/-! ### State.dropWrite -/

@[simp] theorem State.dropWrite_ie (s : State) : (s.dropWrite).ie = s.ie := rfl
@[simp] theorem State.dropWrite_status (s : State) : (s.dropWrite).status = s.status.overrun := rfl
@[simp] theorem State.dropWrite_paramN (s : State) : (s.dropWrite).paramN = s.paramN := rfl
@[simp] theorem State.dropWrite_paramK (s : State) : (s.dropWrite).paramK = s.paramK := rfl
@[simp] theorem State.dropWrite_paramT (s : State) : (s.dropWrite).paramT = s.paramT := rfl
@[simp] theorem State.dropWrite_keyN (s : State) : (s.dropWrite).keyN = s.keyN := rfl
@[simp] theorem State.dropWrite_keyK (s : State) : (s.dropWrite).keyK = s.keyK := rfl
@[simp] theorem State.dropWrite_syndWt (s : State) : (s.dropWrite).syndWt = s.syndWt := rfl
@[simp] theorem State.dropWrite_decStat (s : State) : (s.dropWrite).decStat = s.decStat := rfl
@[simp] theorem State.dropWrite_searchCnt (s : State) : (s.dropWrite).searchCnt = s.searchCnt := rfl
@[simp] theorem State.dropWrite_regM (s : State) : (s.dropWrite).regM = s.regM := rfl
@[simp] theorem State.dropWrite_regE (s : State) : (s.dropWrite).regE = s.regE := rfl
@[simp] theorem State.dropWrite_regC (s : State) : (s.dropWrite).regC = s.regC := rfl
@[simp] theorem State.dropWrite_regS (s : State) : (s.dropWrite).regS = s.regS := rfl
@[simp] theorem State.dropWrite_regD (s : State) : (s.dropWrite).regD = s.regD := rfl
@[simp] theorem State.dropWrite_matP (s : State) : (s.dropWrite).matP = s.matP := rfl
@[simp] theorem State.dropWrite_cmdIf (s : State) : (s.dropWrite).cmdIf = s.cmdIf := rfl
@[simp] theorem State.dropWrite_inputs (s : State) : (s.dropWrite).inputs = s.inputs := rfl
@[simp] theorem State.dropWrite_rndValid (s : State) : (s.dropWrite).rndValid = s.rndValid := rfl
@[simp] theorem State.dropWrite_fresh (s : State) : (s.dropWrite).fresh = s.fresh := rfl
@[simp] theorem State.dropWrite_resp (s : State) : (s.dropWrite).resp = s.resp := rfl

/-! ### State.acknowledge -/

@[simp] theorem State.acknowledge_ie (s : State) (v : Word) : (s.acknowledge v).ie = s.ie := rfl
@[simp] theorem State.acknowledge_status (s : State) (v : Word) : (s.acknowledge v).status = s.status.clearWritten v := rfl
@[simp] theorem State.acknowledge_paramN (s : State) (v : Word) : (s.acknowledge v).paramN = s.paramN := rfl
@[simp] theorem State.acknowledge_paramK (s : State) (v : Word) : (s.acknowledge v).paramK = s.paramK := rfl
@[simp] theorem State.acknowledge_paramT (s : State) (v : Word) : (s.acknowledge v).paramT = s.paramT := rfl
@[simp] theorem State.acknowledge_keyN (s : State) (v : Word) : (s.acknowledge v).keyN = s.keyN := rfl
@[simp] theorem State.acknowledge_keyK (s : State) (v : Word) : (s.acknowledge v).keyK = s.keyK := rfl
@[simp] theorem State.acknowledge_syndWt (s : State) (v : Word) : (s.acknowledge v).syndWt = s.syndWt := rfl
@[simp] theorem State.acknowledge_decStat (s : State) (v : Word) : (s.acknowledge v).decStat = s.decStat := rfl
@[simp] theorem State.acknowledge_searchCnt (s : State) (v : Word) : (s.acknowledge v).searchCnt = s.searchCnt := rfl
@[simp] theorem State.acknowledge_regM (s : State) (v : Word) : (s.acknowledge v).regM = s.regM := rfl
@[simp] theorem State.acknowledge_regE (s : State) (v : Word) : (s.acknowledge v).regE = s.regE := rfl
@[simp] theorem State.acknowledge_regC (s : State) (v : Word) : (s.acknowledge v).regC = s.regC := rfl
@[simp] theorem State.acknowledge_regS (s : State) (v : Word) : (s.acknowledge v).regS = s.regS := rfl
@[simp] theorem State.acknowledge_regD (s : State) (v : Word) : (s.acknowledge v).regD = s.regD := rfl
@[simp] theorem State.acknowledge_matP (s : State) (v : Word) : (s.acknowledge v).matP = s.matP := rfl
@[simp] theorem State.acknowledge_cmdIf (s : State) (v : Word) : (s.acknowledge v).cmdIf = s.cmdIf := rfl
@[simp] theorem State.acknowledge_inputs (s : State) (v : Word) : (s.acknowledge v).inputs = s.inputs := rfl
@[simp] theorem State.acknowledge_rndValid (s : State) (v : Word) : (s.acknowledge v).rndValid = s.rndValid := rfl
@[simp] theorem State.acknowledge_fresh (s : State) (v : Word) : (s.acknowledge v).fresh = s.fresh := rfl
@[simp] theorem State.acknowledge_resp (s : State) (v : Word) : (s.acknowledge v).resp = s.resp := rfl

/-! ### State.succeed -/

@[simp] theorem State.succeed_ie (s : State) : (s.succeed).ie = s.ie := rfl
@[simp] theorem State.succeed_status (s : State) : (s.succeed).status = s.status.succeeded s.cmdIf := rfl
@[simp] theorem State.succeed_paramN (s : State) : (s.succeed).paramN = s.paramN := rfl
@[simp] theorem State.succeed_paramK (s : State) : (s.succeed).paramK = s.paramK := rfl
@[simp] theorem State.succeed_paramT (s : State) : (s.succeed).paramT = s.paramT := rfl
@[simp] theorem State.succeed_keyN (s : State) : (s.succeed).keyN = s.keyN := rfl
@[simp] theorem State.succeed_keyK (s : State) : (s.succeed).keyK = s.keyK := rfl
@[simp] theorem State.succeed_syndWt (s : State) : (s.succeed).syndWt = s.syndWt := rfl
@[simp] theorem State.succeed_decStat (s : State) : (s.succeed).decStat = s.decStat := rfl
@[simp] theorem State.succeed_searchCnt (s : State) : (s.succeed).searchCnt = s.searchCnt := rfl
@[simp] theorem State.succeed_regM (s : State) : (s.succeed).regM = s.regM := rfl
@[simp] theorem State.succeed_regE (s : State) : (s.succeed).regE = s.regE := rfl
@[simp] theorem State.succeed_regC (s : State) : (s.succeed).regC = s.regC := rfl
@[simp] theorem State.succeed_regS (s : State) : (s.succeed).regS = s.regS := rfl
@[simp] theorem State.succeed_regD (s : State) : (s.succeed).regD = s.regD := rfl
@[simp] theorem State.succeed_matP (s : State) : (s.succeed).matP = s.matP := rfl
@[simp] theorem State.succeed_cmdIf (s : State) : (s.succeed).cmdIf = s.cmdIf := rfl
@[simp] theorem State.succeed_inputs (s : State) : (s.succeed).inputs = s.inputs := rfl
@[simp] theorem State.succeed_rndValid (s : State) : (s.succeed).rndValid = s.rndValid := rfl
@[simp] theorem State.succeed_fresh (s : State) : (s.succeed).fresh = s.fresh := rfl
@[simp] theorem State.succeed_resp (s : State) : (s.succeed).resp = s.resp := rfl

/-! ### State.enterError -/

@[simp] theorem State.enterError_ie (s : State) (e : CmdError) : (s.enterError e).ie = s.ie := rfl
@[simp] theorem State.enterError_status (s : State) (e : CmdError) : (s.enterError e).status = s.status.failed s.cmdIf e := rfl
@[simp] theorem State.enterError_paramN (s : State) (e : CmdError) : (s.enterError e).paramN = s.paramN := rfl
@[simp] theorem State.enterError_paramK (s : State) (e : CmdError) : (s.enterError e).paramK = s.paramK := rfl
@[simp] theorem State.enterError_paramT (s : State) (e : CmdError) : (s.enterError e).paramT = s.paramT := rfl
@[simp] theorem State.enterError_keyN (s : State) (e : CmdError) : (s.enterError e).keyN = s.keyN := rfl
@[simp] theorem State.enterError_keyK (s : State) (e : CmdError) : (s.enterError e).keyK = s.keyK := rfl
@[simp] theorem State.enterError_syndWt (s : State) (e : CmdError) : (s.enterError e).syndWt = s.syndWt := rfl
@[simp] theorem State.enterError_decStat (s : State) (e : CmdError) : (s.enterError e).decStat = s.decStat := rfl
@[simp] theorem State.enterError_searchCnt (s : State) (e : CmdError) : (s.enterError e).searchCnt = s.searchCnt := rfl
@[simp] theorem State.enterError_regM (s : State) (e : CmdError) : (s.enterError e).regM = s.regM := rfl
@[simp] theorem State.enterError_regE (s : State) (e : CmdError) : (s.enterError e).regE = s.regE := rfl
@[simp] theorem State.enterError_regC (s : State) (e : CmdError) : (s.enterError e).regC = s.regC := rfl
@[simp] theorem State.enterError_regS (s : State) (e : CmdError) : (s.enterError e).regS = s.regS := rfl
@[simp] theorem State.enterError_regD (s : State) (e : CmdError) : (s.enterError e).regD = s.regD := rfl
@[simp] theorem State.enterError_matP (s : State) (e : CmdError) : (s.enterError e).matP = s.matP := rfl
@[simp] theorem State.enterError_cmdIf (s : State) (e : CmdError) : (s.enterError e).cmdIf = s.cmdIf := rfl
@[simp] theorem State.enterError_inputs (s : State) (e : CmdError) : (s.enterError e).inputs = s.inputs := rfl
@[simp] theorem State.enterError_rndValid (s : State) (e : CmdError) : (s.enterError e).rndValid = s.rndValid := rfl
@[simp] theorem State.enterError_fresh (s : State) (e : CmdError) : (s.enterError e).fresh = s.fresh := rfl
@[simp] theorem State.enterError_resp (s : State) (e : CmdError) : (s.enterError e).resp = s.resp := rfl

/-! ### State.withKey -/

@[simp] theorem State.withKey_ie (s : State) (b : BitVec (s.k * (s.n - s.k))) : (s.withKey b).ie = s.ie := rfl
@[simp] theorem State.withKey_status (s : State) (b : BitVec (s.k * (s.n - s.k))) : (s.withKey b).status = s.status := rfl
@[simp] theorem State.withKey_paramN (s : State) (b : BitVec (s.k * (s.n - s.k))) : (s.withKey b).paramN = s.paramN := rfl
@[simp] theorem State.withKey_paramK (s : State) (b : BitVec (s.k * (s.n - s.k))) : (s.withKey b).paramK = s.paramK := rfl
@[simp] theorem State.withKey_paramT (s : State) (b : BitVec (s.k * (s.n - s.k))) : (s.withKey b).paramT = s.paramT := rfl
@[simp] theorem State.withKey_keyN (s : State) (b : BitVec (s.k * (s.n - s.k))) : (s.withKey b).keyN = s.paramN := rfl
@[simp] theorem State.withKey_keyK (s : State) (b : BitVec (s.k * (s.n - s.k))) : (s.withKey b).keyK = s.paramK := rfl
@[simp] theorem State.withKey_syndWt (s : State) (b : BitVec (s.k * (s.n - s.k))) : (s.withKey b).syndWt = s.syndWt := rfl
@[simp] theorem State.withKey_decStat (s : State) (b : BitVec (s.k * (s.n - s.k))) : (s.withKey b).decStat = s.decStat := rfl
@[simp] theorem State.withKey_searchCnt (s : State) (b : BitVec (s.k * (s.n - s.k))) : (s.withKey b).searchCnt = s.searchCnt := rfl
@[simp] theorem State.withKey_regM (s : State) (b : BitVec (s.k * (s.n - s.k))) : (s.withKey b).regM = s.regM := rfl
@[simp] theorem State.withKey_regE (s : State) (b : BitVec (s.k * (s.n - s.k))) : (s.withKey b).regE = s.regE := rfl
@[simp] theorem State.withKey_regC (s : State) (b : BitVec (s.k * (s.n - s.k))) : (s.withKey b).regC = s.regC := rfl
@[simp] theorem State.withKey_regS (s : State) (b : BitVec (s.k * (s.n - s.k))) : (s.withKey b).regS = s.regS := rfl
@[simp] theorem State.withKey_regD (s : State) (b : BitVec (s.k * (s.n - s.k))) : (s.withKey b).regD = s.regD := rfl
@[simp] theorem State.withKey_matP (s : State) (b : BitVec (s.k * (s.n - s.k))) : (s.withKey b).matP = keyOfDraw s.k (s.n - s.k) b := rfl
@[simp] theorem State.withKey_cmdIf (s : State) (b : BitVec (s.k * (s.n - s.k))) : (s.withKey b).cmdIf = s.cmdIf := rfl
@[simp] theorem State.withKey_inputs (s : State) (b : BitVec (s.k * (s.n - s.k))) : (s.withKey b).inputs = s.inputs := rfl
@[simp] theorem State.withKey_rndValid (s : State) (b : BitVec (s.k * (s.n - s.k))) : (s.withKey b).rndValid = s.rndValid := rfl
@[simp] theorem State.withKey_fresh (s : State) (b : BitVec (s.k * (s.n - s.k))) : (s.withKey b).fresh = s.fresh := rfl
@[simp] theorem State.withKey_resp (s : State) (b : BitVec (s.k * (s.n - s.k))) : (s.withKey b).resp = s.resp := rfl

/-! ### State.withCiphertext -/

@[simp] theorem State.withCiphertext_ie (s : State) (m : BitVec KMAX) (e : BitVec NMAX) : (s.withCiphertext m e).ie = s.ie := rfl
@[simp] theorem State.withCiphertext_status (s : State) (m : BitVec KMAX) (e : BitVec NMAX) : (s.withCiphertext m e).status = s.status := rfl
@[simp] theorem State.withCiphertext_paramN (s : State) (m : BitVec KMAX) (e : BitVec NMAX) : (s.withCiphertext m e).paramN = s.paramN := rfl
@[simp] theorem State.withCiphertext_paramK (s : State) (m : BitVec KMAX) (e : BitVec NMAX) : (s.withCiphertext m e).paramK = s.paramK := rfl
@[simp] theorem State.withCiphertext_paramT (s : State) (m : BitVec KMAX) (e : BitVec NMAX) : (s.withCiphertext m e).paramT = s.paramT := rfl
@[simp] theorem State.withCiphertext_keyN (s : State) (m : BitVec KMAX) (e : BitVec NMAX) : (s.withCiphertext m e).keyN = s.keyN := rfl
@[simp] theorem State.withCiphertext_keyK (s : State) (m : BitVec KMAX) (e : BitVec NMAX) : (s.withCiphertext m e).keyK = s.keyK := rfl
@[simp] theorem State.withCiphertext_syndWt (s : State) (m : BitVec KMAX) (e : BitVec NMAX) : (s.withCiphertext m e).syndWt = s.syndWt := rfl
@[simp] theorem State.withCiphertext_decStat (s : State) (m : BitVec KMAX) (e : BitVec NMAX) : (s.withCiphertext m e).decStat = s.decStat := rfl
@[simp] theorem State.withCiphertext_searchCnt (s : State) (m : BitVec KMAX) (e : BitVec NMAX) : (s.withCiphertext m e).searchCnt = s.searchCnt := rfl
@[simp] theorem State.withCiphertext_regM (s : State) (m : BitVec KMAX) (e : BitVec NMAX) : (s.withCiphertext m e).regM = m := rfl
@[simp] theorem State.withCiphertext_regE (s : State) (m : BitVec KMAX) (e : BitVec NMAX) : (s.withCiphertext m e).regE = e := rfl
@[simp] theorem State.withCiphertext_regC (s : State) (m : BitVec KMAX) (e : BitVec NMAX) : (s.withCiphertext m e).regC = timesG s.matP m s.k (s.n - s.k) ^^^ e := rfl
@[simp] theorem State.withCiphertext_regS (s : State) (m : BitVec KMAX) (e : BitVec NMAX) : (s.withCiphertext m e).regS = s.regS := rfl
@[simp] theorem State.withCiphertext_regD (s : State) (m : BitVec KMAX) (e : BitVec NMAX) : (s.withCiphertext m e).regD = s.regD := rfl
@[simp] theorem State.withCiphertext_matP (s : State) (m : BitVec KMAX) (e : BitVec NMAX) : (s.withCiphertext m e).matP = s.matP := rfl
@[simp] theorem State.withCiphertext_cmdIf (s : State) (m : BitVec KMAX) (e : BitVec NMAX) : (s.withCiphertext m e).cmdIf = s.cmdIf := rfl
@[simp] theorem State.withCiphertext_inputs (s : State) (m : BitVec KMAX) (e : BitVec NMAX) : (s.withCiphertext m e).inputs = s.inputs := rfl
@[simp] theorem State.withCiphertext_rndValid (s : State) (m : BitVec KMAX) (e : BitVec NMAX) : (s.withCiphertext m e).rndValid = s.rndValid := rfl
@[simp] theorem State.withCiphertext_fresh (s : State) (m : BitVec KMAX) (e : BitVec NMAX) : (s.withCiphertext m e).fresh = s.fresh := rfl
@[simp] theorem State.withCiphertext_resp (s : State) (m : BitVec KMAX) (e : BitVec NMAX) : (s.withCiphertext m e).resp = s.resp := rfl

/-! ### State.withSyndrome -/

@[simp] theorem State.withSyndrome_ie (s : State) : (s.withSyndrome).ie = s.ie := rfl
@[simp] theorem State.withSyndrome_status (s : State) : (s.withSyndrome).status = s.status := rfl
@[simp] theorem State.withSyndrome_paramN (s : State) : (s.withSyndrome).paramN = s.paramN := rfl
@[simp] theorem State.withSyndrome_paramK (s : State) : (s.withSyndrome).paramK = s.paramK := rfl
@[simp] theorem State.withSyndrome_paramT (s : State) : (s.withSyndrome).paramT = s.paramT := rfl
@[simp] theorem State.withSyndrome_keyN (s : State) : (s.withSyndrome).keyN = s.keyN := rfl
@[simp] theorem State.withSyndrome_keyK (s : State) : (s.withSyndrome).keyK = s.keyK := rfl
@[simp] theorem State.withSyndrome_syndWt (s : State) : (s.withSyndrome).syndWt = BitVec.ofNat 16 (popcount s.syndrome) := rfl
@[simp] theorem State.withSyndrome_decStat (s : State) : (s.withSyndrome).decStat = s.decStat := rfl
@[simp] theorem State.withSyndrome_searchCnt (s : State) : (s.withSyndrome).searchCnt = s.searchCnt := rfl
@[simp] theorem State.withSyndrome_regM (s : State) : (s.withSyndrome).regM = s.regM := rfl
@[simp] theorem State.withSyndrome_regE (s : State) : (s.withSyndrome).regE = s.regE := rfl
@[simp] theorem State.withSyndrome_regC (s : State) : (s.withSyndrome).regC = s.regC := rfl
@[simp] theorem State.withSyndrome_regS (s : State) : (s.withSyndrome).regS = s.syndrome := rfl
@[simp] theorem State.withSyndrome_regD (s : State) : (s.withSyndrome).regD = s.regD := rfl
@[simp] theorem State.withSyndrome_matP (s : State) : (s.withSyndrome).matP = s.matP := rfl
@[simp] theorem State.withSyndrome_cmdIf (s : State) : (s.withSyndrome).cmdIf = s.cmdIf := rfl
@[simp] theorem State.withSyndrome_inputs (s : State) : (s.withSyndrome).inputs = s.inputs := rfl
@[simp] theorem State.withSyndrome_rndValid (s : State) : (s.withSyndrome).rndValid = s.rndValid := rfl
@[simp] theorem State.withSyndrome_fresh (s : State) : (s.withSyndrome).fresh = s.fresh := rfl
@[simp] theorem State.withSyndrome_resp (s : State) : (s.withSyndrome).resp = s.resp := rfl

/-! ### State.withDecision -/

@[simp] theorem State.withDecision_ie (s : State) (path : Bool) (a : Search) : (s.withDecision path a).ie = s.ie := rfl
@[simp] theorem State.withDecision_status (s : State) (path : Bool) (a : Search) : (s.withDecision path a).status = s.status := rfl
@[simp] theorem State.withDecision_paramN (s : State) (path : Bool) (a : Search) : (s.withDecision path a).paramN = s.paramN := rfl
@[simp] theorem State.withDecision_paramK (s : State) (path : Bool) (a : Search) : (s.withDecision path a).paramK = s.paramK := rfl
@[simp] theorem State.withDecision_paramT (s : State) (path : Bool) (a : Search) : (s.withDecision path a).paramT = s.paramT := rfl
@[simp] theorem State.withDecision_keyN (s : State) (path : Bool) (a : Search) : (s.withDecision path a).keyN = s.keyN := rfl
@[simp] theorem State.withDecision_keyK (s : State) (path : Bool) (a : Search) : (s.withDecision path a).keyK = s.keyK := rfl
@[simp] theorem State.withDecision_syndWt (s : State) (path : Bool) (a : Search) : (s.withDecision path a).syndWt = s.syndWt := rfl
@[simp] theorem State.withDecision_decStat (s : State) (path : Bool) (a : Search) : (s.withDecision path a).decStat = decStatWord path a := rfl
@[simp] theorem State.withDecision_searchCnt (s : State) (path : Bool) (a : Search) : (s.withDecision path a).searchCnt = BitVec.ofNat 8 a.cnt := rfl
@[simp] theorem State.withDecision_regM (s : State) (path : Bool) (a : Search) : (s.withDecision path a).regM = s.regM := rfl
@[simp] theorem State.withDecision_regE (s : State) (path : Bool) (a : Search) : (s.withDecision path a).regE = s.regE := rfl
@[simp] theorem State.withDecision_regC (s : State) (path : Bool) (a : Search) : (s.withDecision path a).regC = s.regC := rfl
@[simp] theorem State.withDecision_regS (s : State) (path : Bool) (a : Search) : (s.withDecision path a).regS = s.regS := rfl
@[simp] theorem State.withDecision_regD (s : State) (path : Bool) (a : Search) : (s.withDecision path a).regD = a.best := rfl
@[simp] theorem State.withDecision_matP (s : State) (path : Bool) (a : Search) : (s.withDecision path a).matP = s.matP := rfl
@[simp] theorem State.withDecision_cmdIf (s : State) (path : Bool) (a : Search) : (s.withDecision path a).cmdIf = s.cmdIf := rfl
@[simp] theorem State.withDecision_inputs (s : State) (path : Bool) (a : Search) : (s.withDecision path a).inputs = s.inputs := rfl
@[simp] theorem State.withDecision_rndValid (s : State) (path : Bool) (a : Search) : (s.withDecision path a).rndValid = s.rndValid := rfl
@[simp] theorem State.withDecision_fresh (s : State) (path : Bool) (a : Search) : (s.withDecision path a).fresh = s.fresh := rfl
@[simp] theorem State.withDecision_resp (s : State) (path : Bool) (a : Search) : (s.withDecision path a).resp = s.resp := rfl

/-! ### State.resetBlock -/

@[simp] theorem State.resetBlock_ie (s : State) : (s.resetBlock).ie = false := rfl
@[simp] theorem State.resetBlock_status (s : State) : (s.resetBlock).status = Status.reset := rfl
@[simp] theorem State.resetBlock_paramN (s : State) : (s.resetBlock).paramN = 0 := rfl
@[simp] theorem State.resetBlock_paramK (s : State) : (s.resetBlock).paramK = 0 := rfl
@[simp] theorem State.resetBlock_paramT (s : State) : (s.resetBlock).paramT = 0 := rfl
@[simp] theorem State.resetBlock_keyN (s : State) : (s.resetBlock).keyN = 0 := rfl
@[simp] theorem State.resetBlock_keyK (s : State) : (s.resetBlock).keyK = 0 := rfl
@[simp] theorem State.resetBlock_syndWt (s : State) : (s.resetBlock).syndWt = 0 := rfl
@[simp] theorem State.resetBlock_decStat (s : State) : (s.resetBlock).decStat = 0 := rfl
@[simp] theorem State.resetBlock_searchCnt (s : State) : (s.resetBlock).searchCnt = 0 := rfl
@[simp] theorem State.resetBlock_regM (s : State) : (s.resetBlock).regM = 0 := rfl
@[simp] theorem State.resetBlock_regE (s : State) : (s.resetBlock).regE = 0 := rfl
@[simp] theorem State.resetBlock_regC (s : State) : (s.resetBlock).regC = 0 := rfl
@[simp] theorem State.resetBlock_regS (s : State) : (s.resetBlock).regS = 0 := rfl
@[simp] theorem State.resetBlock_regD (s : State) : (s.resetBlock).regD = 0 := rfl
@[simp] theorem State.resetBlock_matP (s : State) : (s.resetBlock).matP = Vector.replicate KMAX 0 := rfl
@[simp] theorem State.resetBlock_cmdIf (s : State) : (s.resetBlock).cmdIf = 0 := rfl
@[simp] theorem State.resetBlock_inputs (s : State) : (s.resetBlock).inputs = s.inputs := rfl
@[simp] theorem State.resetBlock_rndValid (s : State) : (s.resetBlock).rndValid = s.rndValid := rfl
@[simp] theorem State.resetBlock_fresh (s : State) : (s.resetBlock).fresh = s.fresh := rfl
@[simp] theorem State.resetBlock_resp (s : State) : (s.resetBlock).resp = none := rfl

/-! ### What is read through these updates -/

@[simp] theorem State.succeed_irq (s : State) : s.succeed.irq = s.ie := by simp [State.irq]
@[simp] theorem State.enterError_irq (s : State) (e : CmdError) : (s.enterError e).irq = s.ie := by simp [State.irq]
@[simp] theorem State.issue_irq (s : State) (v : Word) : (s.issue v).irq = false := by simp [State.irq]

end Sys2Proof.Machine
end

