-- ==== Sys2Proof/Laws/Bus.lean ====
section
/-! SUPPORT. The words of a register, the register map at each offset, and what a transaction can do. -/

namespace Sys2Proof.Machine

open Sys2Proof.Config

/-! ### Words (10_state.md R38) -/

@[simp] theorem readWord_getLsbD {len : Nat} (v : BitVec len) (w b : Nat) :
    (readWord v w).getLsbD b = (decide (b < 32) && v.getLsbD (32 * w + b)) := by simp [readWord]

theorem writeWord_getLsbD {len : Nat} (v : BitVec len) (w : Nat) (x : Word) (j : Nat) (hj : j < len) :
    (writeWord v w x).getLsbD j = if j / 32 = w then x.getLsbD (j % 32) else v.getLsbD j := by
  simp only [writeWord, BitVec.getLsbD_or, BitVec.getLsbD_and, BitVec.getLsbD_not, BitVec.getLsbD_shiftLeft,
    BitVec.getLsbD_setWidth, BitVec.getLsbD_allOnes, hj, decide_true, Bool.true_and]
  by_cases h1 : j < 32 * w
  · have : j / 32 ≠ w := by omega
    simp [h1, this]
  · have h3 : j - 32 * w < len := by omega
    by_cases h2 : j / 32 = w
    · have h4 : j - 32 * w < 32 := by omega
      have h5 : j - 32 * w = j % 32 := by omega
      rw [h5] at h3 h4 ⊢
      simp [h1, h2, h3, h4]
    · have h4 : ¬ j - 32 * w < 32 := by omega
      have h5 : x.getLsbD (j - 32 * w) = false := BitVec.getLsbD_of_ge _ _ (by omega)
      simp [h1, h2, h4, h5]

/-! ### The register map (10_state.md R20, R37, R41) -/

theorem regAt_m (w : Nat) (h : w < 4) : regAt (0x100 + 4 * w) = .m w := by
  interval_cases w <;> rfl

theorem regAt_e (w : Nat) (h : w < 6) : regAt (0x140 + 4 * w) = .e w := by
  interval_cases w <;> rfl

theorem regAt_c (w : Nat) (h : w < 6) : regAt (0x180 + 4 * w) = .c w := by
  interval_cases w <;> rfl

theorem regAt_s (w : Nat) (h : w < 2) : regAt (0x1C0 + 4 * w) = .s w := by
  interval_cases w <;> rfl

theorem regAt_d (w : Nat) (h : w < 4) : regAt (0x200 + 4 * w) = .d w := by
  interval_cases w <;> rfl

theorem regAt_p (i w : Nat) (hi : i < 128) (hw : w < 2) : regAt (0x400 + 8 * i + 4 * w) = .p i w := by
  have h1 : (0x400 + 8 * i + 4 * w - 0x400) / 8 = i := by omega
  have h2 : (0x400 + 8 * i + 4 * w - 0x400) % 8 / 4 = w := by omega
  have h3 : 0x400 + 8 * i + 4 * w < 0x800 := by omega
  unfold regAt
  simp only [inWords, wordsFor, KMAX, NMAX, RMAX, PSTRIDE]
  simp [h1, h2]
  repeat' (first | (rw [if_neg (by omega)]) | (rw [if_pos (by omega)]))

/-- Every word of the P region is a word of a row. -/
theorem regAt_p_of_range (off : Nat) (h1 : 0x400 ≤ off) (h2 : off ≤ 0x7FC) (h4 : off % 4 = 0) :
    regAt off = .p ((off - 0x400) / 8) ((off - 0x400) % 8 / 4) := by
  have := regAt_p ((off - 0x400) / 8) ((off - 0x400) % 8 / 4) (by omega) (by omega)
  rwa [show 0x400 + 8 * ((off - 0x400) / 8) + 4 * ((off - 0x400) % 8 / 4) = off by omega] at this

theorem regAt_reserved (off : Nat) (h : reservedOffset off) (hlt : off < 0x1000) : regAt off = .reserved := by
  obtain ⟨h4, h⟩ := h
  unfold regAt
  simp only [inWords, wordsFor, KMAX, NMAX, RMAX, PSTRIDE, Bool.and_eq_true, decide_eq_true_eq]
  repeat' (first | rfl | (rw [if_neg (by omega)]))

/-! ### Transactions -/

@[simp] theorem wr_eq (off : Nat) (v : Word) :
    wr off v = .bus { we := true, addr := BitVec.ofNat 12 off, size := 2, wdata := v } := rfl

@[simp] theorem rd_eq (off : Nat) :
    rd off = .bus { we := false, addr := BitVec.ofNat 12 off, size := 2, wdata := 0 } := rfl

theorem transact_refused (s : State) (x : Txn) (h : x.accepted = false) :
    transact s x = { s with resp := some .error } := by simp [transact, h]

theorem transact_write (s : State) (off : Nat) (v : Word) (h4 : off % 4 = 0) (hlt : off < 0x1000) :
    transact s { we := true, addr := BitVec.ofNat 12 off, size := 2, wdata := v } =
      writeReg s (regAt off) v := by
  have : off % 4096 = off := Nat.mod_eq_of_lt hlt
  simp [transact, Txn.accepted, this, h4]

theorem transact_read (s : State) (off : Nat) (h4 : off % 4 = 0) (hlt : off < 0x1000) :
    transact s { we := false, addr := BitVec.ofNat 12 off, size := 2, wdata := 0 } =
      readReg s (regAt off) := by
  have : off % 4096 = off := Nat.mod_eq_of_lt hlt
  simp [transact, Txn.accepted, this, h4]

/-- Everything a read can do: answer the view, or a free value of an unstable register while busy. -/
theorem readReg_cases (s : State) (r : Reg) :
    (s.status.busy = true ∧ ∃ bits, unstableBits r = some bits ∧
      readReg s r = { s with resp := some (.okRead (busyWord s.fresh &&& bits)), fresh := s.fresh + 1 }) ∨
    ((s.status.busy = false ∨ unstableBits r = none) ∧
      readReg s r = { s with resp := some (.okRead (readView s r)) }) := by
  cases hb : s.status.busy <;> cases hu : unstableBits r <;> simp [readReg, hb, hu]

/-- A write to a data register is stored while idle and only sets OVR while busy (10_state.md R47). -/
theorem State.whenIdle_cases (s s' : State) :
    (s.status.busy = false ∧ s.whenIdle s' = s') ∨ (s.status.busy = true ∧ s.whenIdle s' = s.dropWrite) := by
  cases h : s.status.busy <;> simp [State.whenIdle, h]

/-- Everything a transaction can do. -/
theorem transact_cases (s : State) (x : Txn) :
    (x.accepted = false ∧ transact s x = { s with resp := some .error }) ∨
    (x.accepted = true ∧ x.we = true ∧ transact s x = writeReg s (regAt x.addr.toNat) x.wdata) ∨
    (x.accepted = true ∧ x.we = false ∧ transact s x = readReg s (regAt x.addr.toNat)) := by
  cases ha : x.accepted <;> cases hw : x.we <;> simp [transact, ha, hw]

/-! ### Groups of offsets -/

/-- The offsets of the data registers hold registers whose write is dropped while busy. -/
theorem regAt_data (off : Nat) (h : dataOffset off) : inputReg (regAt off) = true := by
  obtain ⟨h4, h | h | h | h | h⟩ := h
  · simp at h; rcases h with rfl | rfl | rfl | rfl | rfl <;> rfl
  · have := regAt_m ((off - 0x100) / 4) (by omega)
    rw [show 0x100 + 4 * ((off - 0x100) / 4) = off by omega] at this; rw [this]; rfl
  · have := regAt_e ((off - 0x140) / 4) (by omega)
    rw [show 0x140 + 4 * ((off - 0x140) / 4) = off by omega] at this; rw [this]; rfl
  · have := regAt_c ((off - 0x180) / 4) (by omega)
    rw [show 0x180 + 4 * ((off - 0x180) / 4) = off by omega] at this; rw [this]; rfl
  · rw [regAt_p_of_range off (by omega) (by omega) h4]; rfl

theorem dataOffset_lt {off : Nat} (h : dataOffset off) : off < 0x1000 := by
  obtain ⟨h4, h | h | h | h | h⟩ := h
  · simp at h; omega
  all_goals omega

/-- A write to a read-only register has no effect. -/
theorem writeEffect_readOnly (off : Nat) (h : readOnlyOffset off) (s : State) (v : Word) :
    writeEffect s (regAt off) v = s := by
  obtain ⟨h4, h | h | h⟩ := h
  · simp at h; rcases h with rfl | rfl | rfl | rfl | rfl <;> rfl
  · by_cases hh : off < 0x1C8
    · have := regAt_s ((off - 0x1C0) / 4) (by omega)
      rw [show 0x1C0 + 4 * ((off - 0x1C0) / 4) = off by omega] at this; rw [this]; rfl
    · rw [regAt_reserved off ⟨h4, by omega⟩ (by omega)]; rfl
  · by_cases hh : off < 0x210
    · have := regAt_d ((off - 0x200) / 4) (by omega)
      rw [show 0x200 + 4 * ((off - 0x200) / 4) = off by omega] at this; rw [this]; rfl
    · rw [regAt_reserved off ⟨h4, by omega⟩ (by omega)]; rfl

/-- The registers with unstable bits are exactly those at the BUSY_UNSTABLE offsets. -/
theorem unstableBits_isSome_iff (off : Nat) (h4 : off % 4 = 0) (hlt : off < 0x1000) :
    (unstableBits (regAt off)).isSome = true ↔ unstableOffset off := by
  by_cases h : off < 0x400
  · obtain ⟨q, rfl⟩ : ∃ q, off = 4 * q := ⟨off / 4, by omega⟩
    have hz : ∀ q < 256, ((unstableBits (regAt (4 * q))).isSome = true ↔ unstableOffset (4 * q)) := by
      decide +kernel
    exact hz q (by omega)
  · by_cases h2 : off < 0x800
    · rw [regAt_p_of_range off (by omega) (by omega) h4]
      simp [unstableBits, unstableOffset, h4]; omega
    · rw [regAt_reserved off ⟨h4, by omega⟩ hlt]
      simp [unstableBits, unstableOffset]; omega

/-- CTRL stands at one offset only. -/
theorem regAt_eq_ctrl (off : Nat) (h4 : off % 4 = 0) (hlt : off < 0x1000) (h : regAt off = .ctrl) : off = 0x008 := by
  by_cases h1 : off < 0x400
  · have hz : ∀ q < 256, regAt (4 * q) = .ctrl → 4 * q = 0x008 := by decide +kernel
    have := hz (off / 4) (by omega)
    rw [show 4 * (off / 4) = off by omega] at this
    exact this h
  · by_cases h2 : off < 0x800
    · rw [regAt_p_of_range off (by omega) (by omega) h4] at h; cases h
    · rw [regAt_reserved off ⟨h4, by omega⟩ hlt] at h; cases h

/-- The key stands at KEY_N, KEY_K and the P region only. -/
theorem regAt_eq_key (off : Nat) (h4 : off % 4 = 0) (hlt : off < 0x1000)
    (h : regAt off = .keyN ∨ regAt off = .keyK ∨ ∃ i w, regAt off = .p i w) :
    off = 0x020 ∨ off = 0x024 ∨ 0x400 ≤ off ∧ off ≤ 0x7FC := by
  by_cases h1 : off < 0x400
  · have hz : ∀ q < 256, (match regAt (4 * q) with
        | .keyN | .keyK | .p _ _ => decide (4 * q = 0x020 ∨ 4 * q = 0x024)
        | _ => true) = true := by decide +kernel
    have := hz (off / 4) (by omega)
    rw [show 4 * (off / 4) = off by omega] at this
    have : off = 0x020 ∨ off = 0x024 := by
      rcases h with h | h | ⟨i, w, h⟩ <;> rw [h] at this <;> exact of_decide_eq_true this
    omega
  · by_cases h2 : off < 0x800
    · omega
    · rw [regAt_reserved off ⟨h4, by omega⟩ hlt] at h; simp at h

end Sys2Proof.Machine
end

