-- ==== Sys2Proof/Laws/Vectors.lean ====
section
/-! SUPPORT. What the operations on bit vectors give, position by position (00_scope.md R10 to R14). -/

namespace Sys2Proof.Machine

open Sys2Proof.Config

/-! ### slice, concat, unit -/

@[simp] theorem slice_getLsbD {width len : Nat} (v : BitVec len) (a b j : Nat) :
    (slice width v a b).getLsbD j = (decide (j < width) && decide (j < b - a) && v.getLsbD (a + j)) := by
  simp [slice, Bool.and_assoc]

theorem concat_getLsbD (k : Nat) (u : BitVec KMAX) (w : BitVec RMAX) (j : Nat) (h : j < NMAX) :
    (concat k u w).getLsbD j = (u.getLsbD j || (decide (k ≤ j) && w.getLsbD (j - k))) := by
  have hw : w.getLsbD (j - k) = true → j - k < NMAX := fun h' => by
    have := BitVec.lt_of_getLsbD h'; simp only [RMAX, NMAX, KMAX] at *; omega
  simp only [concat, BitVec.getLsbD_or, BitVec.getLsbD_setWidth, BitVec.getLsbD_shiftLeft]
  by_cases hk : k ≤ j <;> cases hu : u.getLsbD j <;> cases hx : w.getLsbD (j - k) <;>
    simp_all

@[simp] theorem unit_getLsbD (i j : Nat) : (unit i).getLsbD j = (decide (i < KMAX) && decide (i = j)) := by
  simp [unit, BitVec.getLsbD_twoPow]

/-! ### popcount -/

theorem onesBelow_le {len : Nat} (v : BitVec len) (b : Nat) : onesBelow v b ≤ b := by
  induction b with
  | zero => simp [onesBelow]
  | succ b ih => have := Bool.toNat_le (v.getLsbD b); simp only [onesBelow]; omega

theorem onesBelow_congr {len len' : Nat} (v : BitVec len) (v' : BitVec len') (b : Nat)
    (h : ∀ j, j < b → v.getLsbD j = v'.getLsbD j) : onesBelow v b = onesBelow v' b := by
  induction b with
  | zero => rfl
  | succ b ih => simp only [onesBelow, h b (by omega), ih fun j hj => h j (by omega)]

/-- Positions that hold 0 do not count. -/
theorem onesBelow_eq_of_zero_above {len : Nat} (v : BitVec len) {a b : Nat} (hab : a ≤ b)
    (h : ∀ j, a ≤ j → v.getLsbD j = false) : onesBelow v b = onesBelow v a := by
  induction b with
  | zero => obtain rfl : a = 0 := by omega
            rfl
  | succ b ih =>
    by_cases hb : a = b + 1
    · rw [hb]
    · simp [onesBelow, h b (by omega), ih (by omega)]

theorem popcount_eq_onesBelow {len : Nat} (v : BitVec len) {a : Nat} (ha : a ≤ len)
    (h : ∀ j, a ≤ j → v.getLsbD j = false) : popcount v = onesBelow v a :=
  onesBelow_eq_of_zero_above v ha h

theorem popcount_le {len : Nat} (v : BitVec len) : popcount v ≤ len := onesBelow_le v len

theorem popcount_le_of_zero_above {len : Nat} (v : BitVec len) {a : Nat} (ha : a ≤ len)
    (h : ∀ j, a ≤ j → v.getLsbD j = false) : popcount v ≤ a :=
  popcount_eq_onesBelow v ha h ▸ onesBelow_le v a

theorem onesBelow_eq_zero {len : Nat} (v : BitVec len) (b : Nat) :
    onesBelow v b = 0 ↔ ∀ j, j < b → v.getLsbD j = false := by
  induction b with
  | zero => simp [onesBelow]
  | succ b ih =>
    simp only [onesBelow, Nat.add_eq_zero_iff, ih, Bool.toNat_eq_zero]
    constructor
    · rintro ⟨h1, h2⟩ j hj
      by_cases hjb : j = b
      · exact hjb ▸ h2
      · exact h1 j (by omega)
    · exact fun h => ⟨fun j hj => h j (by omega), h b (by omega)⟩

theorem popcount_eq_zero {len : Nat} (v : BitVec len) : popcount v = 0 ↔ v = 0 := by
  rw [popcount, onesBelow_eq_zero]
  constructor
  · intro h; apply BitVec.eq_of_getLsbD_eq; intro i hi; simpa using h i hi
  · rintro rfl; simp

/-- The ones of a concatenation are the ones of its parts. -/
theorem onesBelow_concat (k : Nat) (u : BitVec KMAX) (w : BitVec RMAX) (r : Nat) (hkr : k + r ≤ NMAX)
    (hu : ∀ j, k ≤ j → u.getLsbD j = false) :
    onesBelow (concat k u w) (k + r) = onesBelow u k + onesBelow w r := by
  induction r with
  | zero =>
    simp only [Nat.add_zero, onesBelow]
    refine onesBelow_congr _ _ _ fun j hj => ?_
    rw [concat_getLsbD _ _ _ _ (by omega)]; simp; omega
  | succ r ih =>
    rw [← Nat.add_assoc, onesBelow, ih (by omega), onesBelow, concat_getLsbD _ _ _ _ (by omega), hu _ (by omega)]
    simp; omega

/-! ### The vector-matrix product (00_scope.md R13) -/

/-- Entry (i, j) of the matrix store (00_scope.md R15). -/
theorem row_writeRow (p : Matrix) (i j : Nat) (x : BitVec RMAX) (h : i < KMAX) :
    row (writeRow p i x) j = if i = j then x else row p j := by
  by_cases hij : i = j
  · subst hij; simp [row, writeRow, h]
  · simp [row, writeRow, hij]

theorem row_keyOfDraw (k r : Nat) (bits : BitVec (k * r)) (i : Nat) (hk : k ≤ KMAX) :
    row (keyOfDraw k r bits) i = if i < k then slice RMAX bits (i * r) (i * r + r) else 0 := by
  by_cases hi : i < KMAX
  · simp [row, keyOfDraw, hi]
  · have : ¬ i < k := by omega
    simp [row, keyOfDraw, hi, this]

theorem xorRows_getLsbD_succ (p : Matrix) (m : BitVec KMAX) (k j : Nat) :
    (xorRows p m (k + 1)).getLsbD j =
      ((xorRows p m k).getLsbD j ^^ (m.getLsbD k && (row p k).getLsbD j)) := by
  simp only [xorRows, BitVec.getLsbD_xor]
  cases m.getLsbD k <;> simp

/-- The product reads only the rows and the message bits below k. -/
theorem xorRows_congr (p p' : Matrix) (m m' : BitVec KMAX) (k : Nat)
    (hm : ∀ i, i < k → m.getLsbD i = m'.getLsbD i) (hp : ∀ i, i < k → row p i = row p' i) :
    xorRows p m k = xorRows p' m' k := by
  induction k with
  | zero => rfl
  | succ k ih =>
    simp only [xorRows, hm k (by omega), hp k (by omega),
      ih (fun i hi => hm i (by omega)) fun i hi => hp i (by omega)]

/-- The product is linear in the message (00_scope.md R13). -/
theorem xorRows_xor (p : Matrix) (m m' : BitVec KMAX) (k : Nat) :
    xorRows p (m ^^^ m') k = xorRows p m k ^^^ xorRows p m' k := by
  induction k with
  | zero => simp [xorRows]
  | succ k ih =>
    apply BitVec.eq_of_getLsbD_eq
    intro j _
    simp only [BitVec.getLsbD_xor, xorRows_getLsbD_succ, ih]
    cases m.getLsbD k <;> cases m'.getLsbD k <;>
      cases (row p k).getLsbD j <;> cases (xorRows p m k).getLsbD j <;>
      cases (xorRows p m' k).getLsbD j <;> rfl

/-- A message with one bit set selects one row. -/
theorem xorRows_unit (p : Matrix) (i k : Nat) (hi : i < KMAX) :
    xorRows p (unit i) k = if i < k then row p i else 0 := by
  induction k with
  | zero => simp [xorRows]
  | succ k ih =>
    rw [xorRows, ih]
    by_cases h1 : i < k
    · have : i ≠ k := by omega
      simp [h1, hi, this]; omega
    · by_cases h2 : i = k
      · subst h2; simp [hi]
      · have : ¬ i < k + 1 := by omega
        simp [h1, h2, this]

theorem slice_xor {len : Nat} (width : Nat) (v v' : BitVec len) (a b : Nat) :
    slice width (v ^^^ v') a b = slice width v a b ^^^ slice width v' a b := by
  apply BitVec.eq_of_getLsbD_eq
  intro j _
  simp only [slice_getLsbD, BitVec.getLsbD_xor]
  cases decide (j < width) <;> cases decide (j < b - a) <;> simp

theorem timesP_xor (p : Matrix) (m m' : BitVec KMAX) (k r : Nat) :
    timesP p (m ^^^ m') k r = timesP p m k r ^^^ timesP p m' k r := by
  simp [timesP, xorRows_xor, slice_xor]

theorem timesP_unit (p : Matrix) (i k r : Nat) (hi : i < k) (hk : k ≤ KMAX) :
    timesP p (unit i) k r = slice RMAX (row p i) 0 r := by
  simp [timesP, xorRows_unit p i k (by omega), hi]

/-! ### The shape of a subset draw (10_state.md R45) -/

theorem exactly_getLsbD_ge {len : Nat} (raw : BitVec len) (b need j : Nat) (h : b ≤ j) :
    (exactly raw b need).getLsbD j = false := by
  induction b generalizing need with
  | zero => simp [exactly]
  | succ b ih =>
    cases need with
    | zero => simp [exactly]
    | succ need =>
      simp only [exactly]
      split
      · have : b ≠ j := by omega
        simp [BitVec.getLsbD_twoPow, ih need (by omega), this]
      · exact ih _ (by omega)

/-- Every draw has exactly the size asked for. -/
theorem onesBelow_exactly {len : Nat} (raw : BitVec len) (b need : Nat) (hb : b ≤ len) (hn : need ≤ b) :
    onesBelow (exactly raw b need) b = need := by
  induction b generalizing need with
  | zero => simp [onesBelow]; omega
  | succ b ih =>
    cases need with
    | zero => exact (onesBelow_eq_zero _ _).2 fun j _ => by simp [exactly]
    | succ need =>
      simp only [exactly]
      split
      · next hc =>
        have h1 : onesBelow (BitVec.twoPow len b ||| exactly raw b need) b = onesBelow (exactly raw b need) b := by
          refine onesBelow_congr _ _ _ fun j hj => ?_
          have : b ≠ j := by omega
          simp [BitVec.getLsbD_twoPow, this]
        rw [onesBelow, h1, ih _ (by omega) (by omega)]
        have : b < len := by omega
        simp [this]
      · next hc =>
        simp only [Bool.or_eq_true, decide_eq_true_eq, not_or] at hc
        rw [onesBelow, ih _ (by omega) (by omega), exactly_getLsbD_ge _ _ _ _ (Nat.le_refl _)]
        simp

theorem popcount_exactly {len : Nat} (raw : BitVec len) (b need : Nat) (hb : b ≤ len) (hn : need ≤ b) :
    popcount (exactly raw b need) = need := by
  rw [popcount_eq_onesBelow _ hb fun j hj => exactly_getLsbD_ge _ _ _ _ hj, onesBelow_exactly _ _ _ hb hn]

/-- Every subset of the size is possible: a vector of the shape is left as it is. -/
theorem exactly_of_shape {len : Nat} (v : BitVec len) (b : Nat) (hb : b ≤ len) (j : Nat) (hj : j < b) :
    (exactly v b (onesBelow v b)).getLsbD j = v.getLsbD j := by
  induction b with
  | zero => omega
  | succ b ih =>
    rcases Nat.eq_zero_or_pos (onesBelow v (b + 1)) with h0 | hp
    · rw [h0]; simp [exactly, (onesBelow_eq_zero v (b + 1)).1 h0 j hj]
    · obtain ⟨c, hc⟩ : ∃ c, onesBelow v (b + 1) = c + 1 := ⟨_, (Nat.succ_pred_eq_of_pos hp).symm⟩
      rw [hc, exactly]
      have hle := onesBelow_le v b
      have hs : onesBelow v b + (v.getLsbD b).toNat = c + 1 := by rw [← hc]; rfl
      cases hv : v.getLsbD b with
      | true =>
        rw [hv] at hs
        have hcb : onesBelow v b = c := by simpa using hs
        rw [hcb] at ih
        by_cases hjb : j = b
        · subst hjb; simp [BitVec.getLsbD_twoPow, hv]; omega
        · have : b ≠ j := fun h => hjb h.symm
          simp [BitVec.getLsbD_twoPow, this, ih (by omega) (by omega)]
      | false =>
        rw [hv] at hs
        have hcb : onesBelow v b = c + 1 := by simpa using hs
        have hnb : ¬ b < c + 1 := by omega
        rw [hcb] at ih
        simp only [hnb, decide_false, Bool.or_self, Bool.false_eq_true, if_false]
        by_cases hjb : j = b
        · subst hjb; rw [hv]; exact exactly_getLsbD_ge _ _ _ _ (Nat.le_refl _)
        · exact ih (by omega) (by omega)

end Sys2Proof.Machine
end

