-- ==== Sys2Proof/Laws/Completion.lean ====
section
/-! SUPPORT. What the completion of a command can do: the checks, the shared operations `complete` and
`completeDrawing`, and the cases of exec (10_state.md R44, 60_exceptions.md R184, R186). -/

namespace Sys2Proof.Machine

open Sys2Proof.Config

/-! ### The checks -/

theorem legal_iff (n k t : Nat) :
    legal n k t = true ↔ 1 ≤ k ∧ k < n ∧ k ≤ KMAX ∧ n - k ≤ RMAX ∧ t ≤ n := by
  simp [legal, and_assoc]

theorem State.legal_iff (s : State) :
    s.legal = true ↔ 1 ≤ s.k ∧ s.k < s.n ∧ s.k ≤ KMAX ∧ s.n - s.k ≤ RMAX ∧ s.t ≤ s.n :=
  Machine.legal_iff _ _ _

/-- The bounds that a legal parameter set gives every later step of a proof. -/
theorem State.legal_bounds {s : State} (h : s.legal = true) :
    1 ≤ s.k ∧ s.k < s.n ∧ s.k ≤ 128 ∧ s.n - s.k ≤ 64 ∧ s.t ≤ s.n ∧ s.n ≤ 192 := by
  have := s.legal_iff.1 h
  simp only [KMAX, RMAX] at this; omega

theorem State.keyMatches_iff (s : State) : s.keyMatches = true ↔ s.keyN = s.paramN ∧ s.keyK = s.paramK := by
  simp [State.keyMatches]

theorem State.failedCheck_of_illegal {s : State} (h : s.legal = false) (u : Bool) :
    s.failedCheck u = some .invalidParameters := by simp [State.failedCheck, h]

theorem State.failedCheck_of_mismatch {s : State} (h : s.legal = true) (hk : s.keyMatches = false) :
    s.failedCheck true = some .invalidKey := by simp [State.failedCheck, h, hk]

theorem State.failedCheck_of_passed {s : State} (h : s.legal = true) {u : Bool}
    (hk : u = true → s.keyMatches = true) : s.failedCheck u = none := by
  cases u <;> simp_all [State.failedCheck]

theorem State.failedCheck_cases (s : State) (u : Bool) :
    (s.legal = false ∧ s.failedCheck u = some .invalidParameters) ∨
    (s.legal = true ∧ u = true ∧ s.keyMatches = false ∧ s.failedCheck u = some .invalidKey) ∨
    (s.legal = true ∧ (u = true → s.keyMatches = true) ∧ s.failedCheck u = none) := by
  cases hl : s.legal
  · exact .inl ⟨rfl, failedCheck_of_illegal hl u⟩
  · cases u
    · exact .inr (.inr ⟨rfl, by simp, failedCheck_of_passed hl (by simp)⟩)
    · cases hk : s.keyMatches
      · exact .inr (.inl ⟨rfl, rfl, rfl, failedCheck_of_mismatch hl hk⟩)
      · exact .inr (.inr ⟨rfl, by simp, failedCheck_of_passed hl (by simp [hk])⟩)

/-- The only errors a check of parameters or key raises (60_exceptions.md R184). -/
theorem State.failedCheck_codes {s : State} {u : Bool} {e : CmdError} (h : s.failedCheck u = some e) :
    e = .invalidParameters ∨ e = .invalidKey := by
  rcases s.failedCheck_cases u with ⟨_, h'⟩ | ⟨_, _, _, h'⟩ | ⟨_, _, h'⟩ <;> simp_all

/-! ### complete and completeDrawing -/

theorem complete_failed {s effect : State} {u : Bool} {e : CmdError} (h : s.failedCheck u = some e) :
    complete u s effect = .next (s.enterError e) := by simp [complete, h]

theorem complete_passed {s effect : State} {u : Bool} (h : s.failedCheck u = none) :
    complete u s effect = .next effect.succeed := by simp [complete, h]

theorem completeDrawing_failed {s effect : State} {u : Bool} {e : CmdError} (h : s.failedCheck u = some e) :
    completeDrawing u s effect = .next (s.enterError e) := by simp [completeDrawing, h]

theorem completeDrawing_passed {s effect : State} {u : Bool} (h : s.failedCheck u = none) (hr : s.rndValid = true) :
    completeDrawing u s effect = .next effect.succeed := by simp [completeDrawing, h, hr]

theorem completeDrawing_waits {s effect : State} {u : Bool} (h : s.failedCheck u = none) (hr : s.rndValid = false) :
    completeDrawing u s effect = .next s := by simp [completeDrawing, h, hr]

theorem complete_cases {s effect t : State} {u : Bool} (h : complete u s effect = .next t) :
    (∃ e, s.failedCheck u = some e ∧ t = s.enterError e) ∨
    (s.failedCheck u = none ∧ t = effect.succeed) := by
  cases hf : s.failedCheck u with
  | some e => rw [complete_failed hf] at h; cases h; exact .inl ⟨e, rfl, rfl⟩
  | none => rw [complete_passed hf] at h; cases h; exact .inr ⟨rfl, rfl⟩

theorem completeDrawing_cases {s effect t : State} {u : Bool} (h : completeDrawing u s effect = .next t) :
    (∃ e, s.failedCheck u = some e ∧ t = s.enterError e) ∨
    (s.failedCheck u = none ∧ s.rndValid = true ∧ t = effect.succeed) ∨
    (s.failedCheck u = none ∧ s.rndValid = false ∧ t = s) := by
  cases hf : s.failedCheck u with
  | some e => rw [completeDrawing_failed hf] at h; cases h; exact .inl ⟨e, rfl, rfl⟩
  | none =>
    cases hr : s.rndValid with
    | true => rw [completeDrawing_passed hf hr] at h; cases h; exact .inr (.inl ⟨rfl, rfl, rfl⟩)
    | false => rw [completeDrawing_waits hf hr] at h; cases h; exact .inr (.inr ⟨rfl, rfl, rfl⟩)

theorem complete_next (u : Bool) (s effect : State) : ∃ t, complete u s effect = .next t := by
  cases hf : s.failedCheck u with
  | some e => exact ⟨_, complete_failed hf⟩
  | none => exact ⟨_, complete_passed hf⟩

theorem completeDrawing_next (u : Bool) (s effect : State) : ∃ t, completeDrawing u s effect = .next t := by
  cases hf : s.failedCheck u with
  | some e => exact ⟨_, completeDrawing_failed hf⟩
  | none =>
    cases hr : s.rndValid with
    | true => exact ⟨_, completeDrawing_passed hf hr⟩
    | false => exact ⟨_, completeDrawing_waits hf hr⟩

/-! ### exec -/

/-- What a successful completion of each command writes, STATUS apart (30_encoding.md R93). -/
def effect (i : Instr) (s : State) : State :=
  match i with
  | .nop => s
  | .genp => { s.withKey (s.drawKey s.fresh) with fresh := s.fresh + 1 }
  | .genm => { s with regM := s.drawMessage s.fresh, fresh := s.fresh + 1 }
  | .gene => { s with regE := s.drawError s.fresh, fresh := s.fresh + 2 }
  | .mulg => { s with regC := timesG s.matP (slice KMAX s.regM 0 s.k) s.k (s.n - s.k) }
  | .xore => { s with regC := slice NMAX s.regC 0 s.n ^^^ slice NMAX s.regE 0 s.n }
  | .encap =>
    { s.withCiphertext (s.drawMessage s.fresh) (s.drawError (s.fresh + 1)) with fresh := s.fresh + 3 }
  | .synd => s.withSyndrome
  | .decode => s.withSyndrome.withDecision (!s.accepts) s.decision

/-- exec by the shape of its completion. -/
theorem exec_eq (i : Instr) (s : State) :
    exec i s = if i = .nop then .next s.succeed
      else if draws i then completeDrawing (usesKey i) s (effect i s) else complete (usesKey i) s (effect i s) := by
  cases i <;> rfl

/-- Everything exec can do: fail a check, complete with the command's effect, or wait for the random source. -/
theorem exec_cases {i : Instr} {s t : State} (h : exec i s = .next t) :
    (i ≠ .nop ∧ ∃ e, s.failedCheck (usesKey i) = some e ∧ t = s.enterError e) ∨
    (s.ready i ∧ t = (effect i s).succeed) ∨
    (draws i = true ∧ s.failedCheck (usesKey i) = none ∧ s.rndValid = false ∧ t = s) := by
  rw [exec_eq] at h
  by_cases hi : i = .nop
  · rw [if_pos hi] at h; cases h; subst hi; exact .inr (.inl ⟨.inl rfl, rfl⟩)
  · rw [if_neg hi] at h
    have passed : s.failedCheck (usesKey i) = none → s.legal = true ∧ (usesKey i = true → s.keyMatches = true) := by
      intro hf
      rcases s.failedCheck_cases (usesKey i) with ⟨_, h'⟩ | ⟨_, _, _, h'⟩ | ⟨h1, h2, _⟩
      · simp [h'] at hf
      · simp [h'] at hf
      · exact ⟨h1, h2⟩
    cases hd : draws i with
    | true =>
      rw [if_pos hd] at h
      rcases completeDrawing_cases h with he | ⟨hf, hr, rfl⟩ | ⟨hf, hr, rfl⟩
      · exact .inl ⟨hi, he⟩
      · exact .inr (.inl ⟨.inr ⟨(passed hf).1, (passed hf).2, fun _ => hr⟩, rfl⟩)
      · exact .inr (.inr ⟨rfl, hf, hr, rfl⟩)
    | false =>
      rw [if_neg (by simp [hd])] at h
      rcases complete_cases h with he | ⟨hf, rfl⟩
      · exact .inl ⟨hi, he⟩
      · exact .inr (.inl ⟨.inr ⟨(passed hf).1, (passed hf).2, by simp [hd]⟩, rfl⟩)

/-- A command whose checks pass, with the random source live if it draws, completes with its effect. -/
theorem exec_ready {i : Instr} {s : State} (h : s.ready i) : exec i s = .next (effect i s).succeed := by
  rw [exec_eq]
  rcases h with rfl | ⟨hl, hk, hr⟩
  · rfl
  · by_cases hi : i = .nop
    · subst hi; rfl
    · rw [if_neg hi]
      have hf := State.failedCheck_of_passed hl hk
      cases hd : draws i with
      | true => rw [if_pos rfl]; exact completeDrawing_passed hf (hr hd)
      | false => rw [if_neg (by simp)]; exact complete_passed hf

/-- A command with a failing check enters the error. -/
theorem exec_failed {i : Instr} {s : State} {e : CmdError} (hi : i ≠ .nop)
    (h : s.failedCheck (usesKey i) = some e) : exec i s = .next (s.enterError e) := by
  rw [exec_eq, if_neg hi]
  split
  · exact completeDrawing_failed h
  · exact complete_failed h

/-- No command stops the machine. -/
theorem exec_next (i : Instr) (s : State) : ∃ t, exec i s = .next t := by
  rw [exec_eq]
  split
  · exact ⟨_, rfl⟩
  · split
    · exact completeDrawing_next _ _ _
    · exact complete_next _ _ _

/-- Frame of the effects: what no command writes. -/
theorem effect_frame (i : Instr) (s : State) :
    (effect i s).ie = s.ie ∧ (effect i s).status = s.status ∧ (effect i s).paramN = s.paramN ∧
    (effect i s).paramK = s.paramK ∧ (effect i s).paramT = s.paramT ∧ (effect i s).cmdIf = s.cmdIf ∧
    (effect i s).inputs = s.inputs ∧ (effect i s).rndValid = s.rndValid ∧ (effect i s).resp = s.resp := by
  cases i <;> exact ⟨rfl, rfl, rfl, rfl, rfl, rfl, rfl, rfl, rfl⟩

@[simp] theorem effect_ie (i : Instr) (s : State) : (effect i s).ie = s.ie := (effect_frame i s).1
@[simp] theorem effect_status (i : Instr) (s : State) : (effect i s).status = s.status := (effect_frame i s).2.1
@[simp] theorem effect_cmdIf (i : Instr) (s : State) : (effect i s).cmdIf = s.cmdIf := (effect_frame i s).2.2.2.2.2.1
@[simp] theorem effect_inputs (i : Instr) (s : State) : (effect i s).inputs = s.inputs :=
  (effect_frame i s).2.2.2.2.2.2.1

/-- A command whose checks pass can only complete with its effect. -/
theorem exec_unique {i : Instr} {s u : State} (hr : s.ready i) (h : exec i s = .next u) : u = (effect i s).succeed := by
  rw [exec_ready hr] at h; cases h; rfl

/-- A command is ready when LEGAL holds, the key matches if it uses the key, and words are offered if it draws. -/
theorem State.ready_of {i : Instr} {s : State} (hl : s.legal = true) (hk : usesKey i = true → s.keyMatches = true)
    (hr : draws i = true → s.rndValid = true) : s.ready i := .inr ⟨hl, hk, hr⟩

end Sys2Proof.Machine
end

