-- ==== Sys2Proof/Laws/Decoder.lean ====
section
/-! SUPPORT. What the probe loop of DECODE can answer, said once (42_decapsulator.md R154, R155, R157). -/

namespace Sys2Proof.Machine

open Sys2Proof.Config

@[simp] theorem State.probe_cnt (s : State) (i : Nat) (a : Search) : (s.probe i a).cnt = a.cnt + 1 := by
  simp only [State.probe]; split <;> rfl

@[simp] theorem State.probe_early (s : State) (i : Nat) (a : Search) :
    (s.probe i a).early = (s.probeErr i == 0) := by
  simp only [State.probe]; split <;> rfl

theorem State.probe_better {s : State} {i : Nat} {a : Search} (h : s.probeErr i < a.bestErr) :
    (s.probe i a).best = s.candidate i ∧ (s.probe i a).bestErr = s.probeErr i ∧ (s.probe i a).flip = i := by
  simp [State.probe, h]

theorem State.probe_worse {s : State} {i : Nat} {a : Search} (h : a.bestErr ≤ s.probeErr i) :
    (s.probe i a).best = a.best ∧ (s.probe i a).bestErr = a.bestErr ∧ (s.probe i a).flip = a.flip := by
  have : ¬ s.probeErr i < a.bestErr := by omega
  simp [State.probe, this]

/-- The best of a search, against the candidate `a` it started with and the probes i .. r.cnt - 1 it ran. -/
def Search.bestOf (r : Search) (s : State) (i : Nat) (a : Search) : Prop :=
  (r.best = a.best ∧ r.bestErr = a.bestErr ∧ r.flip = a.flip ∧
    ∀ j, i ≤ j → j < r.cnt → a.bestErr ≤ s.probeErr j) ∨
  (i ≤ r.flip ∧ r.flip < r.cnt ∧ r.best = s.candidate r.flip ∧ r.bestErr = s.probeErr r.flip ∧
    r.bestErr < a.bestErr ∧ (∀ j, i ≤ j → j < r.flip → r.bestErr < s.probeErr j) ∧
    ∀ j, i ≤ j → j < r.cnt → r.bestErr ≤ s.probeErr j)

/-- Everything the loop can answer: how many probes ran, why it ended, and which candidate is the best. -/
theorem State.search_spec (s : State) (todo i : Nat) (a : Search) (hc : a.cnt = i) (he : a.early = false) :
    i ≤ (s.search todo i a).cnt ∧ (s.search todo i a).cnt ≤ i + todo ∧
    (0 < todo → i < (s.search todo i a).cnt) ∧
    (∀ j, i ≤ j → j + 1 < (s.search todo i a).cnt → s.probeErr j ≠ 0) ∧
    ((s.search todo i a).early = true →
      i < (s.search todo i a).cnt ∧ s.probeErr ((s.search todo i a).cnt - 1) = 0) ∧
    ((s.search todo i a).early = false →
      (s.search todo i a).cnt = i + todo ∧ ∀ j, i ≤ j → j < i + todo → s.probeErr j ≠ 0) ∧
    (s.search todo i a).bestOf s i a := by
  induction todo generalizing i a with
  | zero =>
    refine ⟨by simp [search, hc], by simp [search, hc], by simp, ?_, ?_, ?_, .inl ⟨rfl, rfl, rfl, ?_⟩⟩
    · intro j hj hj'; simp [search, hc] at hj'; omega
    · simp [search, he]
    · intro _; exact ⟨by simp [search, hc], fun j h1 h2 => by omega⟩
    · intro j hj hj'; simp [search, hc] at hj'; omega
  | succ todo ih =>
    cases hp : (s.probe i a).early with
    | true =>
      have hz : s.probeErr i = 0 := by simpa using hp
      have hsearch : s.search (todo + 1) i a = s.probe i a := by simp [search, hz]
      rw [hsearch]
      refine ⟨by simp [hc], by simp [hc], by simp [hc], ?_, ?_, by simp [hz], ?_⟩
      · intro j h1 h2; simp [hc] at h2; omega
      · intro _; simp [hc, hz]
      · by_cases hb : s.probeErr i < a.bestErr
        · obtain ⟨h1, h2, h3⟩ := State.probe_better hb
          refine .inr ⟨by omega, by simp [hc]; omega, by rw [h1, h3], by rw [h2, h3], by omega, ?_, ?_⟩
          · intro j h4 h5; omega
          · intro j h4 h5; rw [h2, hz]; omega
        · obtain ⟨h1, h2, h3⟩ := State.probe_worse (s := s) (i := i) (a := a) (by omega)
          refine .inl ⟨h1, h2, h3, ?_⟩
          intro j h4 h5; omega
    | false =>
      have hz : s.probeErr i ≠ 0 := by simpa using hp
      have hsearch : s.search (todo + 1) i a = s.search todo (i + 1) (s.probe i a) := by simp [search, hz]
      rw [hsearch]
      obtain ⟨h1, h2, h3, h4, h5, h6, h7⟩ := ih (i + 1) (s.probe i a) (by simp [hc]) hp
      refine ⟨by omega, by omega, fun _ => by omega, ?_, ?_, ?_, ?_⟩
      · intro j hj hj'
        by_cases hji : j = i
        · exact hji ▸ hz
        · exact h4 j (by omega) hj'
      · intro h; exact ⟨by omega, (h5 h).2⟩
      · intro h
        refine ⟨by have := (h6 h).1; omega, fun j hj hj' => ?_⟩
        by_cases hji : j = i
        · exact hji ▸ hz
        · exact (h6 h).2 j (by omega) (by omega)
      · by_cases hb : s.probeErr i < a.bestErr
        · obtain ⟨b1, b2, b3⟩ := State.probe_better hb
          rcases h7 with ⟨c1, c2, c3, c4⟩ | ⟨c1, c2, c3, c4, c5, c6, c7⟩
          · refine .inr ⟨by omega, by omega, by rw [c1, c3, b1, b3], by rw [c2, c3, b2, b3], by omega, ?_, ?_⟩
            · intro j hj hj'; omega
            · intro j hj hj'
              by_cases hji : j = i
              · subst hji; omega
              · have := c4 j (by omega) hj'; omega
          · refine .inr ⟨by omega, c2, c3, c4, by omega, ?_, ?_⟩
            · intro j hj hj'
              by_cases hji : j = i
              · subst hji; omega
              · exact c6 j (by omega) hj'
            · intro j hj hj'
              by_cases hji : j = i
              · subst hji; omega
              · exact c7 j (by omega) hj'
        · obtain ⟨b1, b2, b3⟩ := State.probe_worse (s := s) (i := i) (a := a) (by omega)
          rcases h7 with ⟨c1, c2, c3, c4⟩ | ⟨c1, c2, c3, c4, c5, c6, c7⟩
          · refine .inl ⟨by rw [c1, b1], by rw [c2, b2], by rw [c3, b3], ?_⟩
            intro j hj hj'
            by_cases hji : j = i
            · subst hji; omega
            · have := c4 j (by omega) hj'; omega
          · refine .inr ⟨by omega, c2, c3, c4, by omega, ?_, ?_⟩
            · intro j hj hj'
              by_cases hji : j = i
              · subst hji; omega
              · exact c6 j (by omega) hj'
            · intro j hj hj'
              by_cases hji : j = i
              · subst hji; omega
              · exact c7 j (by omega) hj'

/-! ### The fields of DEC_STAT (10_state.md R35) -/

theorem decStatWord_getLsbD (path : Bool) (a : Search) (b : Nat) (hf : a.flip < 256) (he : a.bestErr < 65536) :
    (decStatWord path a).getLsbD b =
      if b = 0 then path else if b = 1 then a.early
      else if 8 ≤ b ∧ b ≤ 15 then a.flip.testBit (b - 8)
      else if 16 ≤ b ∧ b ≤ 31 then a.bestErr.testBit (b - 16) else false := by
  have hf' : ∀ i, 8 ≤ i → a.flip.testBit i = false := fun i hi =>
    Nat.testBit_lt_two_pow (Nat.lt_of_lt_of_le hf (by simpa using Nat.pow_le_pow_right (n := 2) (by omega) hi))
  have he' : ∀ i, 16 ≤ i → a.bestErr.testBit i = false := fun i hi =>
    Nat.testBit_lt_two_pow (Nat.lt_of_lt_of_le he (by simpa using Nat.pow_le_pow_right (n := 2) (by omega) hi))
  by_cases hb : b < 32
  · simp only [decStatWord, BitVec.getLsbD_or, BitVec.getLsbD_setWidth, BitVec.getLsbD_shiftLeft,
      BitVec.getLsbD_ofNat, BitVec.getLsbD_ofBool, hb, decide_true, Bool.true_and]
    by_cases h0 : b = 0
    · subst h0; simp
    · by_cases h1 : b = 1
      · subst h1; simp
      · by_cases h8 : b < 8
        · have a1 : ¬ (8 ≤ b ∧ b ≤ 15) := by omega
          have a2 : ¬ (16 ≤ b ∧ b ≤ 31) := by omega
          have a3 : b - 1 ≠ 0 := by omega
          have a4 : b < 16 := by omega
          simp [h0, h1, h8, a1, a2, a3, a4]
        · by_cases h16 : b < 16
          · have a1 : 8 ≤ b ∧ b ≤ 15 := by omega
            have a3 : b - 1 ≠ 0 := by omega
            have a5 : b - 8 < 32 := by omega
            simp [h0, h1, h8, h16, a1, a3, a5]
          · have a1 : ¬ (8 ≤ b ∧ b ≤ 15) := by omega
            have a2 : 16 ≤ b ∧ b ≤ 31 := by omega
            have a3 : b - 1 ≠ 0 := by omega
            have a5 : b - 16 < 32 := by omega
            simp [h0, h1, h8, h16, a1, a2, a3, a5, hf' (b - 8) (by omega)]
  · have a1 : ¬ (8 ≤ b ∧ b ≤ 15) := by omega
    have a2 : ¬ (16 ≤ b ∧ b ≤ 31) := by omega
    have a3 : b ≠ 0 := by omega
    have a4 : b ≠ 1 := by omega
    rw [BitVec.getLsbD_of_ge _ _ (by omega)]
    simp [a1, a2, a3, a4]

/-! ### The fields of DEC_STAT -/

section

variable (path : Bool) (a : Search) (hf : a.flip < 256) (he : a.bestErr < 65536)
include hf he

theorem decStatWord_path : (decStatWord path a).getLsbD 0 = path := by
  rw [decStatWord_getLsbD _ _ _ hf he]; simp

theorem decStatWord_early : (decStatWord path a).getLsbD 1 = a.early := by
  rw [decStatWord_getLsbD _ _ _ hf he]; simp

theorem decStatWord_reserved : (decStatWord path a).extractLsb' 2 6 = 0 := by
  apply BitVec.eq_of_getLsbD_eq; intro i hi
  rw [BitVec.getLsbD_extractLsb', decStatWord_getLsbD _ _ _ hf he, if_neg (by omega), if_neg (by omega),
    if_neg (by omega), if_neg (by omega)]
  simp

theorem decStatWord_flip : (decStatWord path a).extractLsb' 8 8 = BitVec.ofNat 8 a.flip := by
  apply BitVec.eq_of_getLsbD_eq; intro i hi
  rw [BitVec.getLsbD_extractLsb', decStatWord_getLsbD _ _ _ hf he, if_neg (by omega), if_neg (by omega),
    if_pos (by omega), BitVec.getLsbD_ofNat]
  simp [hi]

theorem decStatWord_bestErr : (decStatWord path a).extractLsb' 16 16 = BitVec.ofNat 16 a.bestErr := by
  apply BitVec.eq_of_getLsbD_eq; intro i hi
  rw [BitVec.getLsbD_extractLsb', decStatWord_getLsbD _ _ _ hf he, if_neg (by omega), if_neg (by omega),
    if_neg (by omega), if_pos (by omega), BitVec.getLsbD_ofNat]
  simp [hi]

end

/-- The ranges of the working values of DECODE. -/
theorem State.decision_bounds (s : State) :
    s.decision.flip < 256 ∧ s.decision.bestErr ≤ 64 ∧ s.decision.cnt ≤ 16 ∧ s.decision.cnt ≤ s.k := by
  have hp := popcount_le s.syndrome
  simp only [RMAX] at hp
  unfold State.decision
  split
  · simp [State.noProbe]; omega
  · obtain ⟨h1, h2, h3, h4, h5, h6, h7⟩ := State.search_spec s (min W s.k) 0 s.noProbe rfl rfl
    have q1 : s.noProbe.flip = 255 := rfl
    have q2 : s.noProbe.bestErr = popcount s.syndrome := rfl
    simp only [W] at *
    rcases h7 with ⟨c1, c2, c3, c4⟩ | ⟨c1, c2, c3, c4, c5, c6, c7⟩ <;> omega

/-- Only a search ends early. -/
theorem State.accepts_of_early {s : State} (h : s.decision.early = true) : s.accepts = false := by
  by_contra hc
  simp at hc
  simp [State.decision, hc, State.noProbe] at h

end Sys2Proof.Machine
end

