-- ==== Sys2Proof/Laws/Terms.lean ====
section
/-! SUPPORT. The operations of the model in the terms of the rules: entry, xorOver, countOver, productBit,
mismatchBit (Safety.lean). -/

namespace Sys2Proof.Machine

open Sys2Proof.Config

/-! ### xorOver and countOver -/

theorem xorOver_congr {f g : Nat → Bool} (k : Nat) (h : ∀ i, i < k → f i = g i) : xorOver k f = xorOver k g := by
  induction k with
  | zero => rfl
  | succ k ih => simp only [xorOver, h k (by omega), ih fun i hi => h i (by omega)]

theorem xorOver_xor (f g : Nat → Bool) (k : Nat) :
    xorOver k (fun i => f i ^^ g i) = (xorOver k f ^^ xorOver k g) := by
  induction k with
  | zero => rfl
  | succ k ih =>
    simp only [xorOver, ih]
    cases f k <;> cases g k <;> cases xorOver k f <;> cases xorOver k g <;> rfl

theorem xorOver_false {f : Nat → Bool} (k : Nat) (h : ∀ i, i < k → f i = false) : xorOver k f = false := by
  induction k with
  | zero => rfl
  | succ k ih => simp [xorOver, h k (by omega), ih fun i hi => h i (by omega)]

theorem xorOver_single (f : Nat → Bool) (a k : Nat) :
    xorOver k (fun i => decide (i = a) && f i) = (decide (a < k) && f a) := by
  induction k with
  | zero => simp [xorOver]
  | succ k ih =>
    rw [xorOver, ih]
    rcases Nat.lt_trichotomy a k with h | rfl | h
    · have h1 : k ≠ a := by omega
      have h2 : a < k + 1 := by omega
      simp [h, h1, h2]
    · simp
    · have h1 : k ≠ a := by omega
      have h2 : ¬ a < k := by omega
      have h3 : ¬ a < k + 1 := by omega
      simp [h1, h2, h3]

theorem countOver_congr {f g : Nat → Bool} (b : Nat) (h : ∀ i, i < b → f i = g i) : countOver b f = countOver b g := by
  induction b with
  | zero => rfl
  | succ b ih => simp only [countOver, h b (by omega), ih fun i hi => h i (by omega)]

theorem countOver_le (f : Nat → Bool) (b : Nat) : countOver b f ≤ b := by
  induction b with
  | zero => exact Nat.le_refl _
  | succ b ih => have := Bool.toNat_le (f b); simp only [countOver]; omega

theorem countOver_eq_zero (f : Nat → Bool) (b : Nat) : countOver b f = 0 ↔ ∀ j, j < b → f j = false := by
  induction b with
  | zero => simp [countOver]
  | succ b ih =>
    simp only [countOver, Nat.add_eq_zero_iff, ih, Bool.toNat_eq_zero]
    constructor
    · rintro ⟨h1, h2⟩ j hj
      by_cases hjb : j = b
      · exact hjb ▸ h2
      · exact h1 j (by omega)
    · exact fun h => ⟨fun j hj => h j (by omega), h b (by omega)⟩

theorem countOver_eq_self (f : Nat → Bool) (b : Nat) : countOver b f = b ↔ ∀ j, j < b → f j = true := by
  induction b with
  | zero => simp [countOver]
  | succ b ih =>
    have hle := countOver_le f b
    constructor
    · intro h j hj
      simp only [countOver] at h
      have h1 : countOver b f = b ∧ f b = true := by cases hf : f b <;> simp_all
      by_cases hjb : j = b
      · exact hjb ▸ h1.2
      · exact ih.1 h1.1 j (by omega)
    · intro h
      rw [countOver, ih.2 fun j hj => h j (by omega), h b (by omega)]; rfl

/-- A count splits at any position. -/
theorem countOver_add (f : Nat → Bool) (a b : Nat) :
    countOver (a + b) f = countOver a f + countOver b fun j => f (a + j) := by
  induction b with
  | zero => rfl
  | succ b ih => rw [← Nat.add_assoc, countOver, ih, countOver]; omega

theorem onesBelow_eq_countOver {len : Nat} (v : BitVec len) (b : Nat) :
    onesBelow v b = countOver b fun j => v.getLsbD j := by
  induction b with
  | zero => rfl
  | succ b ih => simp only [onesBelow, countOver, ih]

/-! ### The product -/

theorem productBit_congr {p p' : Matrix} {m m' : Nat → Bool} (k j : Nat)
    (hm : ∀ i, i < k → m i = m' i) (hp : ∀ i, i < k → entry p i j = entry p' i j) :
    productBit p k m j = productBit p' k m' j :=
  xorOver_congr k fun i hi => by rw [hm i hi, hp i hi]

theorem productBit_xor (p : Matrix) (k : Nat) (m m' : Nat → Bool) (j : Nat) :
    productBit p k (fun i => m i ^^ m' i) j = (productBit p k m j ^^ productBit p k m' j) := by
  rw [productBit, productBit, productBit, ← xorOver_xor]
  exact xorOver_congr k fun i _ => by cases m i <;> cases m' i <;> cases entry p i j <;> rfl

theorem productBit_unit (p : Matrix) (k a j : Nat) (ha : a < k) :
    productBit p k (fun i => decide (i = a)) j = entry p a j := by
  rw [productBit, xorOver_single]; simp [ha]

theorem productBit_zero (p : Matrix) (k : Nat) {m : Nat → Bool} (j : Nat) (h : ∀ i, i < k → m i = false) :
    productBit p k m j = false :=
  xorOver_false k fun i hi => by simp [h i hi]

theorem xorRows_getLsbD (p : Matrix) (m : BitVec KMAX) (k j : Nat) :
    (xorRows p m k).getLsbD j = productBit p k (fun i => m.getLsbD i) j := by
  induction k with
  | zero => simp [xorRows, productBit, xorOver]
  | succ k ih => rw [xorRows_getLsbD_succ, ih]; rfl

theorem timesP_getLsbD (p : Matrix) (m : BitVec KMAX) (k r j : Nat) (hr : r ≤ RMAX) :
    (timesP p m k r).getLsbD j = (decide (j < r) && productBit p k (fun i => m.getLsbD i) j) := by
  rw [timesP, slice_getLsbD, Nat.zero_add, Nat.sub_zero, xorRows_getLsbD]
  by_cases h : j < r
  · have : j < RMAX := by omega
    simp [h, this]
  · simp [h]

/-- The codeword, part by part (41_encapsulator.md R125). -/
theorem timesG_getLsbD_message (p : Matrix) (m : BitVec KMAX) (k r j : Nat) (hk : k ≤ KMAX) (hj : j < k) :
    (timesG p m k r).getLsbD j = m.getLsbD j := by
  have h1 : ¬ k ≤ j := by omega
  rw [timesG, concat_getLsbD _ _ _ _ (by simp only [NMAX, KMAX, RMAX] at *; omega)]
  simp [h1]

theorem timesG_getLsbD_parity (p : Matrix) (m : BitVec KMAX) (k r j : Nat) (hk : k ≤ KMAX) (hr : r ≤ RMAX)
    (hm : ∀ i, k ≤ i → m.getLsbD i = false) (hj : j < r) :
    (timesG p m k r).getLsbD (k + j) = productBit p k (fun i => m.getLsbD i) j := by
  rw [timesG, concat_getLsbD _ _ _ _ (by simp only [NMAX] at *; omega), hm _ (by omega), timesP_getLsbD _ _ _ _ _ hr]
  simp [hj]

theorem timesG_getLsbD_above (p : Matrix) (m : BitVec KMAX) (k r j : Nat) (hr : r ≤ RMAX)
    (hm : ∀ i, k ≤ i → m.getLsbD i = false) (hj : k + r ≤ j) : (timesG p m k r).getLsbD j = false := by
  by_cases h : j < NMAX
  · have h1 : ¬ j - k < r := by omega
    rw [timesG, concat_getLsbD _ _ _ _ h, hm _ (by omega), timesP_getLsbD _ _ _ _ _ hr]
    simp [h1]
  · exact BitVec.getLsbD_of_ge _ _ (by omega)

/-! ### Parity errors -/

variable {s : State}

theorem State.received_getLsbD (h : s.legal = true) (j : Nat) :
    s.received.getLsbD j = (decide (j < s.k) && s.regC.getLsbD j) := by
  have := State.legal_bounds h
  rw [State.received, slice_getLsbD, Nat.zero_add, Nat.sub_zero]
  by_cases hj : j < s.k
  · have : j < KMAX := by simp only [KMAX]; omega
    simp [hj, this]
  · simp [hj]

theorem State.parityReceived_getLsbD (h : s.legal = true) (j : Nat) :
    s.parityReceived.getLsbD j = (decide (j < s.n - s.k) && s.regC.getLsbD (s.k + j)) := by
  have := State.legal_bounds h
  rw [State.parityReceived, slice_getLsbD]
  by_cases hj : j < s.n - s.k
  · have : j < RMAX := by simp only [RMAX]; omega
    simp [hj, this]
  · simp [hj]

theorem State.mismatch_getLsbD (h : s.legal = true) (cand : BitVec KMAX) (j : Nat) :
    (s.mismatch cand).getLsbD j = (decide (j < s.n - s.k) && s.mismatchBit (fun i => cand.getLsbD i) j) := by
  have := State.legal_bounds h
  rw [State.mismatch, BitVec.getLsbD_xor, timesP_getLsbD _ _ _ _ _ (by simp only [RMAX]; omega),
    State.parityReceived_getLsbD h, State.mismatchBit]
  cases decide (j < s.n - s.k) <;> simp

theorem State.popcount_mismatch (h : s.legal = true) (cand : BitVec KMAX) :
    popcount (s.mismatch cand) = countOver (s.n - s.k) (s.mismatchBit fun i => cand.getLsbD i) := by
  have := State.legal_bounds h
  rw [popcount_eq_onesBelow (a := s.n - s.k) _ (by simp only [RMAX]; omega), onesBelow_eq_countOver]
  · exact countOver_congr _ fun j hj => by rw [State.mismatch_getLsbD h]; simp [hj]
  · intro j hj
    have : ¬ j < s.n - s.k := by omega
    rw [State.mismatch_getLsbD h]; simp [this]

/-- A mismatch depends on the candidate's first k positions only. -/
theorem State.mismatchBit_congr {m m' : Nat → Bool} (j : Nat) (hm : ∀ i, i < s.k → m i = m' i) :
    s.mismatchBit m j = s.mismatchBit m' j := by
  rw [State.mismatchBit, State.mismatchBit, productBit_congr _ _ hm fun _ _ => rfl]

theorem State.syndrome_getLsbD (h : s.legal = true) (j : Nat) :
    s.syndrome.getLsbD j =
      (decide (j < s.n - s.k) && s.mismatchBit (fun i => s.regC.getLsbD i) j) := by
  rw [State.syndrome, State.mismatch_getLsbD h]
  congr 1
  exact State.mismatchBit_congr _ fun i hi => by rw [State.received_getLsbD h]; simp [hi]

/-- pe, as SYND counts it (42_decapsulator.md R150). -/
theorem State.popcount_syndrome (h : s.legal = true) : popcount s.syndrome = s.parityErrors := by
  rw [State.syndrome, State.popcount_mismatch h, State.parityErrors]
  exact countOver_congr _ fun j _ => State.mismatchBit_congr _ fun i hi => by
    rw [State.received_getLsbD h]; simp [hi]

theorem State.candidate_getLsbD (h : s.legal = true) (a j : Nat) (ha : a < s.k) :
    (s.candidate a).getLsbD j = ((decide (j < s.k) && s.regC.getLsbD j) ^^ decide (j = a)) := by
  have := State.legal_bounds h
  have h1 : a < KMAX := by simp only [KMAX]; omega
  rw [State.candidate, BitVec.getLsbD_xor, State.received_getLsbD h, unit_getLsbD]
  simp [h1, eq_comm]

/-- Probe a's count (42_decapsulator.md R154). -/
theorem State.probeErr_eq (h : s.legal = true) (a : Nat) (ha : a < s.k) : s.probeErr a = s.probeErrors a := by
  rw [State.probeErr, State.popcount_mismatch h, State.probeErrors]
  exact countOver_congr _ fun j _ => State.mismatchBit_congr _ fun i hi => by
    rw [State.candidate_getLsbD h a i ha]; simp [hi]

theorem State.parityErrors_le : s.parityErrors ≤ s.n - s.k := countOver_le _ _

end Sys2Proof.Machine
end

