-- ==== Sys2Proof/Laws/Draws.lean ====
section
/-! SUPPORT. What the draws give, position by position, for every value of the free draw: the key, the message
and the error vector (40_code_generator.md R110, 41_encapsulator.md R120 to R122). -/

namespace Sys2Proof.Machine

open Sys2Proof.Config

theorem concat_getLsbD_low (k j : Nat) (u : BitVec KMAX) (w : BitVec RMAX) (hk : k ≤ KMAX) (hj : j < k) :
    (concat k u w).getLsbD j = u.getLsbD j := by
  have h1 : ¬ k ≤ j := by omega
  rw [concat_getLsbD _ _ _ _ (by simp only [NMAX, RMAX, KMAX] at *; omega)]
  simp [h1]

theorem concat_getLsbD_high (k j : Nat) (u : BitVec KMAX) (w : BitVec RMAX) (hk : k ≤ KMAX)
    (hu : ∀ i, k ≤ i → u.getLsbD i = false) : (concat k u w).getLsbD (k + j) = w.getLsbD j := by
  by_cases h : k + j < NMAX
  · rw [concat_getLsbD _ _ _ _ h, hu _ (by omega)]; simp
  · rw [BitVec.getLsbD_of_ge _ _ (by omega), BitVec.getLsbD_of_ge _ _ (by simp only [NMAX] at *; omega)]

variable {s : State} (hl : s.legal = true)
include hl

theorem entry_keyOfDraw (bits : BitVec (s.k * (s.n - s.k))) (i j : Nat) :
    entry (keyOfDraw s.k (s.n - s.k) bits) i j =
      (decide (i < s.k ∧ j < s.n - s.k) && bits.getLsbD (i * (s.n - s.k) + j)) := by
  have := State.legal_bounds hl
  rw [entry, row_keyOfDraw _ _ _ _ (by simp only [KMAX]; omega)]
  by_cases hi : i < s.k
  · rw [if_pos hi, slice_getLsbD]
    by_cases hj : j < s.n - s.k
    · have : j < RMAX := by simp only [RMAX]; omega
      simp [hi, hj, this]
    · simp [hj]
  · simp [hi]

/-- The drawn message: the draw below k, 0 from k up. -/
theorem State.drawMessage_spec (idx : Nat) :
    (∀ j, j < s.k → (s.drawMessage idx).getLsbD j = (drawBits idx s.k).getLsbD j) ∧
    (∀ j, s.k ≤ j → (s.drawMessage idx).getLsbD j = false) := by
  have := State.legal_bounds hl
  constructor
  · intro j hj
    have : j < KMAX := by simp only [KMAX]; omega
    rw [State.drawMessage, slice_getLsbD, Nat.zero_add, Nat.sub_zero, decide_eq_true hj, decide_eq_true this]; rfl
  · intro j hj
    have : ¬ j < s.k := by omega
    simp [State.drawMessage, this]

/-- The drawn error vector, part by part: each is the shape of its own draw, of its size of R121. -/
theorem State.drawError_parts (idx : Nat) :
    (∀ j, j < s.k → (s.drawError idx).getLsbD j =
      (exactly (drawBits idx KMAX) s.k (s.t - min s.t (s.n - s.k))).getLsbD j) ∧
    (∀ j, (s.drawError idx).getLsbD (s.k + j) =
      (exactly (drawBits (idx + 1) RMAX) (s.n - s.k) (min s.t (s.n - s.k))).getLsbD j) := by
  have hk : s.k ≤ KMAX := by have := State.legal_bounds hl; simp only [KMAX]; omega
  exact ⟨fun j hj => concat_getLsbD_low _ _ _ _ hk hj,
    fun j => concat_getLsbD_high _ _ _ _ hk fun i hi => exactly_getLsbD_ge _ _ _ _ hi⟩

/-- The drawn error vector: the two weights of R121, and 0 from n up. -/
theorem State.drawError_spec (idx : Nat) :
    countOver s.k (fun j => (s.drawError idx).getLsbD j) = s.t - min s.t (s.n - s.k) ∧
    countOver (s.n - s.k) (fun j => (s.drawError idx).getLsbD (s.k + j)) = min s.t (s.n - s.k) ∧
    (∀ j, s.n ≤ j → (s.drawError idx).getLsbD j = false) := by
  have hb := State.legal_bounds hl
  obtain ⟨h1, h2⟩ := State.drawError_parts hl idx
  refine ⟨?_, ?_, fun j hj => ?_⟩
  · rw [countOver_congr _ h1, ← onesBelow_eq_countOver,
      onesBelow_exactly _ _ _ (by simp only [KMAX]; omega) (by omega)]
  · rw [countOver_congr _ fun j _ => h2 j, ← onesBelow_eq_countOver,
      onesBelow_exactly _ _ _ (by simp only [RMAX]; omega) (by omega)]
  · rw [show j = s.k + (j - s.k) by omega, h2, exactly_getLsbD_ge _ _ _ _ (by omega)]

/-- The operand m of a multiplication: M below k. -/
theorem slice_message_getLsbD (m : BitVec KMAX) (j : Nat) :
    (slice KMAX m 0 s.k).getLsbD j = (decide (j < s.k) && m.getLsbD j) := by
  have hb := State.legal_bounds hl
  rw [slice_getLsbD, Nat.zero_add, Nat.sub_zero]
  by_cases h : j < s.k
  · have : j < KMAX := by simp only [KMAX]; omega
    simp [h, this]
  · simp [h]

/-- The operands of XORE: C or E below n. -/
theorem slice_word_getLsbD (v : BitVec NMAX) (j : Nat) :
    (slice NMAX v 0 s.n).getLsbD j = (decide (j < s.n) && v.getLsbD j) := by
  have hb := State.legal_bounds hl
  rw [slice_getLsbD, Nat.zero_add, Nat.sub_zero]
  by_cases h : j < s.n
  · have : j < NMAX := by simp only [NMAX, KMAX, RMAX]; omega
    simp [h, this]
  · simp [h]

end Sys2Proof.Machine
end

