-- ==== Sys2Proof/Laws/PerInstr.lean ====
section
/-! SUPPORT. Statements made for every command, one lemma per command: its command word is valid and has one
opcode byte below eight reserved zero bits (30_encoding.md R90, R94). -/

/-- The command word of i: its low byte is the opcode, at most 8, the rest is 0, and the word is valid. -/
def Sys2Proof.Laws.CommandWord.Statement (i : Sys2Proof.Instr) : Prop :=
  (Sys2Proof.encode i).toNat = (Sys2Proof.opcode i).toNat ∧ (Sys2Proof.encode i).toNat ≤ 8 ∧
    Sys2Proof.validWord (Sys2Proof.encode i) = true ∧ i.wellFormed = true

theorem Sys2Proof.Laws.CommandWord.nop : Sys2Proof.Laws.CommandWord.Statement .nop :=
  ⟨by decide, by decide, by decide, rfl⟩

theorem Sys2Proof.Laws.CommandWord.genp : Sys2Proof.Laws.CommandWord.Statement .genp :=
  ⟨by decide, by decide, by decide, rfl⟩

theorem Sys2Proof.Laws.CommandWord.genm : Sys2Proof.Laws.CommandWord.Statement .genm :=
  ⟨by decide, by decide, by decide, rfl⟩

theorem Sys2Proof.Laws.CommandWord.gene : Sys2Proof.Laws.CommandWord.Statement .gene :=
  ⟨by decide, by decide, by decide, rfl⟩

theorem Sys2Proof.Laws.CommandWord.mulg : Sys2Proof.Laws.CommandWord.Statement .mulg :=
  ⟨by decide, by decide, by decide, rfl⟩

theorem Sys2Proof.Laws.CommandWord.xore : Sys2Proof.Laws.CommandWord.Statement .xore :=
  ⟨by decide, by decide, by decide, rfl⟩

theorem Sys2Proof.Laws.CommandWord.encap : Sys2Proof.Laws.CommandWord.Statement .encap :=
  ⟨by decide, by decide, by decide, rfl⟩

theorem Sys2Proof.Laws.CommandWord.synd : Sys2Proof.Laws.CommandWord.Statement .synd :=
  ⟨by decide, by decide, by decide, rfl⟩

theorem Sys2Proof.Laws.CommandWord.decode : Sys2Proof.Laws.CommandWord.Statement .decode :=
  ⟨by decide, by decide, by decide, rfl⟩
end

