-- ==== Sys2Proof/Laws/Step.lean ====
section
/-! SUPPORT. Everything one step can do. -/

namespace Sys2Proof.Machine

/-- The engine's turn, whether it stands in the inputs or the inputs are spent. -/
theorem step_engine {s : State} {rest : List Input} (h : s.engineNext rest) :
    step s = engineTurn { s with inputs := rest } := by
  rcases h with h | ⟨h, rfl⟩
  · simp [step, h]
  · rw [show ({ s with inputs := [] } : State) = s by rw [← h]]
    simp [step, h]

theorem engineTurn_idle {s : State} (h : s.status.busy = false) : engineTurn s = .next s := by
  simp [engineTurn, h]

theorem engineTurn_instr {s : State} {i : Instr} (h : s.status.busy = true) (hd : s.inFlight = .instr i) :
    engineTurn s = exec i s := by simp [engineTurn, h, hd]

theorem engineTurn_illegal {s : State} {why : IllegalWord} (h : s.status.busy = true)
    (hd : s.inFlight = .illegal why) : engineTurn s = .next (s.enterError .illegalCommand) := by
  simp [engineTurn, h, hd, completeIllegal]

theorem step_bus {s : State} {x : Txn} {rest : List Input} (h : s.inputs = .bus x :: rest) :
    step s = .next (transact { s with inputs := rest } x) := by simp [step, h]

theorem step_hwReset {s : State} {rest : List Input} (h : s.inputs = .hwReset :: rest) :
    step s = .next (hardwareReset { s with inputs := rest }) := by simp [step, h]

theorem step_rnd {s : State} {v : Bool} {rest : List Input} (h : s.inputs = .rnd v :: rest) :
    step s = .next { s with inputs := rest, rndValid := v } := by simp [step, h]

/-- Everything a step can do: the engine idles, completes a command or an illegal word; a transaction; a
hardware reset; a change of the random source. -/
theorem step_cases {s t : State} (h : step s = .next t) :
    (∃ rest, s.engineNext rest ∧ s.status.busy = false ∧ t = { s with inputs := rest }) ∨
    (∃ rest i, s.engineNext rest ∧ s.status.busy = true ∧ s.inFlight = .instr i ∧
      exec i { s with inputs := rest } = .next t) ∨
    (∃ rest why, s.engineNext rest ∧ s.status.busy = true ∧ s.inFlight = .illegal why ∧
      t = ({ s with inputs := rest } : State).enterError .illegalCommand) ∨
    (∃ rest x, s.inputs = .bus x :: rest ∧ t = transact { s with inputs := rest } x) ∨
    (∃ rest, s.inputs = .hwReset :: rest ∧ t = hardwareReset { s with inputs := rest }) ∨
    (∃ rest v, s.inputs = .rnd v :: rest ∧ t = { s with inputs := rest, rndValid := v }) := by
  have engine : ∀ rest, s.engineNext rest → engineTurn { s with inputs := rest } = .next t →
      (s.status.busy = false ∧ t = { s with inputs := rest }) ∨
      (∃ i, s.status.busy = true ∧ s.inFlight = .instr i ∧ exec i { s with inputs := rest } = .next t) ∨
      (∃ why, s.status.busy = true ∧ s.inFlight = .illegal why ∧
        t = ({ s with inputs := rest } : State).enterError .illegalCommand) := by
    intro rest _ he
    cases hb : s.status.busy with
    | false => rw [engineTurn_idle (by exact hb)] at he; cases he; exact .inl ⟨rfl, rfl⟩
    | true =>
      cases hd : s.inFlight with
      | instr i => rw [engineTurn_instr (by exact hb) (by exact hd)] at he; exact .inr (.inl ⟨i, rfl, rfl, he⟩)
      | illegal why =>
        rw [engineTurn_illegal (by exact hb) (by exact hd)] at he; cases he
        exact .inr (.inr ⟨why, rfl, rfl, rfl⟩)
  have finish : ∀ rest, s.engineNext rest →
      (∃ rest, s.engineNext rest ∧ s.status.busy = false ∧ t = { s with inputs := rest }) ∨
      (∃ rest i, s.engineNext rest ∧ s.status.busy = true ∧ s.inFlight = .instr i ∧
        exec i { s with inputs := rest } = .next t) ∨
      (∃ rest why, s.engineNext rest ∧ s.status.busy = true ∧ s.inFlight = .illegal why ∧
        t = ({ s with inputs := rest } : State).enterError .illegalCommand) ∨ False := by
    intro rest hn
    have h' := step_engine hn ▸ h
    rcases engine rest hn h' with h1 | ⟨i, h1⟩ | ⟨why, h1⟩
    · exact .inl ⟨rest, hn, h1⟩
    · exact .inr (.inl ⟨rest, i, hn, h1⟩)
    · exact .inr (.inr (.inl ⟨rest, why, hn, h1⟩))
  cases hi : s.inputs with
  | nil =>
    rcases finish [] (.inr ⟨hi, rfl⟩) with h1 | h1 | h1 | h1
    · exact .inl h1
    · exact .inr (.inl h1)
    · exact .inr (.inr (.inl h1))
    · exact h1.elim
  | cons x rest =>
    cases x with
    | engine =>
      rcases finish rest (.inl hi) with h1 | h1 | h1 | h1
      · exact .inl h1
      · exact .inr (.inl h1)
      · exact .inr (.inr (.inl h1))
      · exact h1.elim
    | bus x => rw [step_bus hi] at h; cases h; exact .inr (.inr (.inr (.inl ⟨rest, x, rfl, rfl⟩)))
    | hwReset => rw [step_hwReset hi] at h; cases h; exact .inr (.inr (.inr (.inr (.inl ⟨rest, rfl, rfl⟩))))
    | rnd v => rw [step_rnd hi] at h; cases h; exact .inr (.inr (.inr (.inr (.inr ⟨rest, v, rfl, rfl⟩))))

/-! ### Host transactions that are the next input -/

theorem step_wr {s : State} {off : Nat} {v : Word} {rest : List Input} (h : s.inputs = wr off v :: rest)
    (h4 : off % 4 = 0) (hlt : off < 0x1000) :
    step s = .next (writeReg { s with inputs := rest } (regAt off) v) := by
  rw [step_bus h, transact_write _ _ _ h4 hlt]

theorem step_rd {s : State} {off : Nat} {rest : List Input} (h : s.inputs = rd off :: rest)
    (h4 : off % 4 = 0) (hlt : off < 0x1000) :
    step s = .next (readReg { s with inputs := rest } (regAt off)) := by
  rw [step_bus h, transact_read _ _ h4 hlt]

/-- An accepted write of any kind is a `wr` of its offset. -/
theorem wr_of_accepted {x : Txn} (ha : x.accepted = true) (hw : x.we = true) :
    Input.bus x = wr x.addr.toNat x.wdata := by
  rcases x with ⟨we, addr, size, wdata⟩
  have hacc : size = 2 ∧ addr.toNat % 4 = 0 := by simpa [Txn.accepted] using ha
  simp at hw ⊢
  exact ⟨hw, hacc.1⟩

end Sys2Proof.Machine
end

