-- ==== Sys2Proof/Tests/Slice0.lean ====
section
/-! SUPPORT. Tests: ill-formed words, decoding of written-out words, one step of each command on the vectors of
spec/95_test_vectors.md, and for every obligation with hypotheses a state that meets them. Every expected value
is taken from the spec or worked out by hand from its rules. -/

namespace Sys2Proof.Tests

set_option Elab.async false

open Sys2Proof Sys2Proof.Machine Sys2Proof.Config

/-! ### Small states -/

/-- The key K8 of 95_test_vectors.md 2.1. -/
def rowsK8 : Matrix :=
  writeRow (writeRow (writeRow (writeRow (Vector.replicate KMAX 0) 0 0xD) 1 0x6) 2 0xB) 3 0x7

/-- PARAM = (8, 4, t) with the key K8 loaded, C as given, and the random source live. -/
def small (t : Half) (c : BitVec NMAX) : State :=
  { State.reset with
    paramN := 8, paramK := 4, paramT := t, keyN := 8, keyK := 4, matP := rowsK8, regC := c, rndValid := true }

/-- The same state with the key of other dimensions. -/
def mismatched : State := { small 2 0xC5 with keyK := 3 }

/-- The same state with an illegal parameter set: t = 9 > n (95_test_vectors.md 2.3). -/
def unlawful : State := small 9 0xC5

/-- The same state while the random source offers no word. -/
def dry : State := { small 2 0xC5 with rndValid := false }

/-- PARAM = (18, 17, t) with a zero key of those dimensions. -/
def wide (t : Half) (c : BitVec NMAX) : State :=
  { State.reset with paramN := 18, paramK := 17, paramT := t, keyN := 18, keyK := 17, regC := c, rndValid := true }

/-- The command word v in flight, with the inputs to come. -/
def flying (s : State) (v : Word) (l : List Input) : State :=
  { s with cmdIf := v, inputs := l, status := { s.status with busy := true } }

/-- The state with the inputs to come. -/
def facing (s : State) (l : List Input) : State := { s with inputs := l }

/-- The outcome is a next state with p. -/
def after (o : Host.Outcome State Fault Refusal) (p : State → Bool) : Bool :=
  match o with
  | .next t => p t
  | _ => false

theorem exists_of_after {o : Host.Outcome State Fault Refusal} {p : State → Bool} (h : after o p = true) :
    ∃ t, o = .next t ∧ p t = true := by
  cases o with
  | next t => exact ⟨t, rfl, h⟩
  | _ => cases h

/-! ### Ill-formed words (30_encoding.md R94, R95) -/

theorem test_rsvClear_refuses : rsvClear 0x00000101 = false := by decide
theorem test_rsvClear_accepts : rsvClear 0x000000FF = true := by decide
theorem test_opcDefined_refuses : opcDefined 0x00000009 = false := by decide
theorem test_opcDefined_accepts : opcDefined 0xFFFFFF08 = true := by decide
theorem test_validWord_refuses : validWord 0x00000009 = false ∧ validWord 0x00000100 = false := by decide
theorem test_wellFormed : Instr.decode.wellFormed = true := by decide

/-! ### Decoding, each word written out from the opcode map (30_encoding.md R90, R92) -/

theorem test_decode_nop : decodeWord 0b00000000000000000000000000000000#32 = .instr .nop := by decide
theorem test_decode_genp : decodeWord 0b00000000000000000000000000000001#32 = .instr .genp := by decide
theorem test_decode_genm : decodeWord 0b00000000000000000000000000000010#32 = .instr .genm := by decide
theorem test_decode_gene : decodeWord 0b00000000000000000000000000000011#32 = .instr .gene := by decide
theorem test_decode_mulg : decodeWord 0b00000000000000000000000000000100#32 = .instr .mulg := by decide
theorem test_decode_xore : decodeWord 0b00000000000000000000000000000101#32 = .instr .xore := by decide
theorem test_decode_encap : decodeWord 0b00000000000000000000000000000110#32 = .instr .encap := by decide
theorem test_decode_synd : decodeWord 0b00000000000000000000000000000111#32 = .instr .synd := by decide
theorem test_decode_decode : decodeWord 0b00000000000000000000000000001000#32 = .instr .decode := by decide
theorem test_decode_reserved_opcode : decodeWord 0b00000000000000000000000000001001#32 = .illegal .reservedOpcode := by
  decide
theorem test_decode_reserved_bits : decodeWord 0b10000000000000000000000000000001#32 = .illegal .reservedBits := by
  decide
/-- The lowest byte comes first (20_memory.md R69), and three bytes are no command. -/
theorem test_decode_bytes : decodeBytes [0x08, 0, 0, 0] = some (.instr .decode) ∧
    decodeBytes [0, 0, 0, 0x08] = some (.illegal .reservedBits) ∧ decodeBytes [0x08, 0, 0] = none := by decide

/-! ### One step of each command (95_test_vectors.md 2.2 to 2.10) -/

/-- Vector B9. -/
theorem test_nop : after (step (State.reset.withFetchWord 32 0)) (fun t => t.status.word == 0x00000002) = true := by
  decide +kernel

/-- 2.2, row 1: the store of the draw 1011 0110 1101 1110. -/
theorem test_genp_shape :
    (List.range 5).map (row (keyOfDraw 4 4 0b0111101101101101#16)) = [0xD, 0x6, 0xB, 0x7, 0] := by decide +kernel

/-- 2.2, row 2: t > n. -/
theorem test_genp_refused : after (step (unlawful.withFetchWord 32 1))
    (fun t => t.status.word == 0x00010106 && t.matP == rowsK8) = true := by decide +kernel

/-- 2.4: the draw 1010 gives M = 5. -/
theorem test_genm_shape : slice KMAX 0b0101#4 0 4 = 0x5 := by decide +kernel

/-- 2.4, last row: k > n. -/
theorem test_genm_refused : after (step ({ small 0 0 with paramK := 9, regM := 0x3 }.withFetchWord 32 2))
    (fun t => t.status.word == 0x00020106 && t.regM == 0x3) = true := by decide +kernel

/-- 2.5, row t = 6: A = {0, 3}, B = {4, 5, 6, 7} (forced: an empty raw draw is filled up). -/
theorem test_gene_shape : concat 4 (exactly 0b1001#128 4 2) (exactly 0#64 4 4) = 0xF9 := by decide +kernel

/-- 2.5, last row: t = 9. -/
theorem test_gene_refused : after (step (unlawful.withFetchWord 32 3))
    (fun t => t.status.word == 0x00030106 && t.regE == 0) = true := by decide +kernel

/-- 2.6, M = 5. -/
theorem test_mulg : after (step ({ small 2 0 with regM := 0x5 }.withFetchWord 32 4)) (fun t => t.regC == 0x65) = true := by
  decide +kernel

/-- 2.6, KEY_K = 3. -/
theorem test_mulg_refused : after (step (mismatched.withFetchWord 32 4))
    (fun t => t.status.word == 0x00040306 && t.regC == 0xC5) = true := by decide +kernel

/-- 2.7, rows 1 and 3: the error is added, and bits from n up are cleared. -/
theorem test_xore : after (step ({ small 2 0x65 with regE := 0xA0 }.withFetchWord 32 5)) (fun t => t.regC == 0xC5) = true := by
  decide +kernel
theorem test_xore_clears : after (step ((small 2 0xFFFFFF65).withFetchWord 32 5)) (fun t => t.regC == 0x65) = true := by
  decide +kernel

/-- 2.8, row 1: m = 5 and e = 0xA0. -/
theorem test_encap_shape : ((small 2 0).withCiphertext 0x5 0xA0).regC = 0xC5 := by decide +kernel

/-- 2.8, last row. -/
theorem test_encap_refused : after (step (mismatched.withFetchWord 32 6)) (fun t => t.status.word == 0x00060306) = true := by
  decide +kernel

/-- 2.9, rows 0xC5 and 0xFF. -/
theorem test_synd : after (step ((small 2 0xC5).withFetchWord 32 7)) (fun t => t.regS == 0xA && t.syndWt == 2) = true := by
  decide +kernel
theorem test_synd_ones : after (step ((small 2 0xFF).withFetchWord 32 7)) (fun t => t.regS == 0x8 && t.syndWt == 1) = true := by
  decide +kernel

/-- 2.10, vectors D4 (one information error corrected) and D8 (a tie keeps the lowest index). -/
theorem test_decode_corrects : after (step ((small 1 0x67).withFetchWord 32 8))
    (fun t => t.regD == 0x5 && t.decStat == 0x00000103 && t.searchCnt == 2) = true := by decide +kernel
theorem test_decode_tie : after (step ((small 0 0x21).withFetchWord 32 8))
    (fun t => t.regD == 0x0 && t.decStat == 0x00010001 && t.searchCnt == 4) = true := by decide +kernel

/-! ### One bus transaction (95_test_vectors.md 2.12) -/

/-- Vector B5: a byte write to CMD is refused. -/
theorem test_bus_error : after (step (facing State.reset [.bus ⟨true, 0x01C, 0, 0x01⟩]))
    (fun t => t.resp == some .error && t.status == Status.reset) = true := by decide +kernel

/-- Vector B8: bits 31:16 of PARAM_N are reserved. -/
theorem test_param_width : after (step (facing State.reset [wr 0x010 0xABCD00C0])) (fun t => t.paramN == 0x00C0) = true := by
  decide +kernel

/-- Vector B15: a write to M while busy is dropped. -/
theorem test_busy_drop : after (step (flying State.reset 1 [wr 0x100 0x1]))
    (fun t => t.status.ovr && t.regM == 0) = true := by decide +kernel

/-! ### The hypotheses of the obligations can be met -/

theorem witness_EncodedCommandDecodesBack : ∀ i : Instr, i.wellFormed = true := by intro i; cases i <;> rfl

/-- 8 is the last valid word; 9 and 0x100 are the first invalid ones of each kind. -/
theorem witness_InvalidWordFailsAsIllegalCommand :
    ((0x8 : Word).extractLsb' 8 24 = 0 ∧ ((0x8 : Word).extractLsb' 0 8).toNat ≤ 8) ∧
    ∀ v ∈ [(0x9 : Word), 0x100], ¬ (v.extractLsb' 8 24 = 0 ∧ (v.extractLsb' 0 8).toNat ≤ 8) ∧
      (flying (small 2 0) v [.engine]).engineNext [] ∧ (flying (small 2 0) v []).engineNext [] ∧
      (flying (small 2 0) v [.engine]).status.busy = true ∧ (flying (small 2 0) v [.engine]).cmdIf = v := by
  refine ⟨by decide, ?_⟩
  intro v hv
  simp at hv
  refine ⟨?_, .inl rfl, .inr ⟨rfl, rfl⟩, rfl, rfl⟩
  rcases hv with rfl | rfl <;> decide

theorem witness_EngineStepRunsTheDecodedCommand : ∀ i : Instr, i.wellFormed = true ∧
    (flying (small 2 0xC5) (encode i) [.engine]).engineNext [] ∧
    (flying (small 2 0xC5) (encode i) [.engine]).status.busy = true ∧
    decodeWord (flying (small 2 0xC5) (encode i) [.engine]).cmdIf = .instr i := by
  intro i; cases i <;> exact ⟨rfl, .inl rfl, rfl, by decide⟩

theorem witness_IdleEngineDoesNothing :
    (facing (small 2 0xC5) [.engine, rd 0x00C]).engineNext [rd 0x00C] ∧
    (facing (small 2 0xC5) [.engine, rd 0x00C]).status.busy = false := ⟨.inl rfl, rfl⟩

/-- The live hypotheses hold for a command, an illegal word, and a failing check. -/
theorem witness_LiveEngineTurnCompletes : ∀ s ∈ [flying (small 2 0xC5) 6 [], flying (small 2 0xC5) 9 [], flying unlawful 6 []],
    s.engineNext [] ∧ s.status.busy = true ∧ s.rndValid = true := by
  intro s hs
  simp at hs
  rcases hs with rfl | rfl | rfl <;> exact ⟨.inr ⟨rfl, rfl⟩, rfl, rfl⟩

theorem witness_DrawingCommandWaitsForWords : ∀ i ∈ [Instr.genp, .genm, .gene, .encap],
    draws i = true ∧ dry.legal = true ∧ (usesKey i = true → dry.keyMatches = true) ∧ dry.rndValid = false := by
  decide +kernel

/-- One state per clause: an illegal word, NOP, a failing LEGAL, a failing KEY, and success. -/
theorem witness_ChecksRunInOrder :
    (∀ s ∈ [flying (small 2 0xC5) 0x108 [], flying (small 2 0xC5) 0 [], flying unlawful 8 [], flying mismatched 8 [],
        flying (small 2 0xC5) 6 []], s.engineNext [] ∧ s.status.busy = true) ∧
    ¬ ((0x108 : Word).extractLsb' 8 24 = 0 ∧ ((0x108 : Word).extractLsb' 0 8).toNat ≤ 8) ∧
    (flying (small 2 0xC5) 0 []).cmdIf = 0 ∧
    (flying unlawful 8 []).cmdIf = encode .decode ∧ (flying unlawful 8 []).legal = false ∧
    (flying mismatched 8 []).legal = true ∧ usesKey .decode = true ∧
      (flying mismatched 8 []).keyK ≠ (flying mismatched 8 []).paramK ∧
    (flying (small 2 0xC5) 6 []).cmdIf = encode .encap ∧ (flying (small 2 0xC5) 6 []).legal = true ∧
      (flying (small 2 0xC5) 6 []).keyN = (flying (small 2 0xC5) 6 []).paramN ∧
      (flying (small 2 0xC5) 6 []).keyK = (flying (small 2 0xC5) 6 []).paramK ∧
      (flying (small 2 0xC5) 6 []).rndValid = true := by
  refine ⟨?_, by decide +kernel⟩
  intro s hs
  simp at hs
  rcases hs with rfl | rfl | rfl | rfl | rfl <;> exact ⟨.inr ⟨rfl, rfl⟩, rfl⟩

/-- A mismatched key, a matching one, and the key dimensions of reset. -/
theorem witness_KeyCheckComparesDimensionsOnly : ∀ i ∈ [Instr.mulg, .encap, .synd, .decode], usesKey i = true ∧
    (mismatched.legal = true ∧ mismatched.keyK ≠ mismatched.paramK) ∧
    ((small 2 0xC5).legal = true ∧ (small 2 0xC5).keyN = (small 2 0xC5).paramN ∧
      (small 2 0xC5).keyK = (small 2 0xC5).paramK ∧ (small 2 0xC5).rndValid = true) ∧
    ({ small 2 0xC5 with keyN := 0, keyK := 0 } : State).legal = true := by decide +kernel

theorem witness_CommandsWriteOnlyTheirRegisters : ∀ i : Instr, ∃ t, exec i (small 2 0xC5) = .next t :=
  fun i => exec_next i _

theorem witness_NopOnlyCompletes :
    ((flying (small 2 0) 4 [wr 0x01C 0]).inputs = [wr 0x01C 0] ∧ (flying (small 2 0) 4 [wr 0x01C 0]).status.busy = true) ∧
    ((facing (small 2 0) [wr 0x01C 0, .engine]).inputs = [wr 0x01C 0, .engine] ∧
      (facing (small 2 0) [wr 0x01C 0, .engine]).status.busy = false) := ⟨⟨rfl, rfl⟩, rfl, rfl⟩

/-- The three cases of every command that draws without the key (also GENM and GENE). -/
theorem witness_GenpReplacesTheStore : unlawful.legal = false ∧ (dry.legal = true ∧ dry.rndValid = false) ∧
    ((small 2 0xC5).legal = true ∧ (small 2 0xC5).rndValid = true) := by decide +kernel

theorem witness_GenmDrawsTheMessage : unlawful.legal = false ∧ (dry.legal = true ∧ dry.rndValid = false) ∧
    ((small 2 0xC5).legal = true ∧ (small 2 0xC5).rndValid = true) := by decide +kernel

theorem witness_GenePlacesTwoSubsets : unlawful.legal = false ∧ (dry.legal = true ∧ dry.rndValid = false) ∧
    ((small 6 0xC5).legal = true ∧ (small 6 0xC5).rndValid = true) := by decide +kernel

/-- Subset {0, 3} of four positions; and the full set, the boundary need = b = len. -/
theorem witness_SubsetDrawHasEveryShape :
    (4 ≤ 128 ∧ 2 ≤ 4 ∧ countOver 4 (fun j => (0b1001#128).getLsbD j) = 2 ∧ ∀ j, 4 ≤ j → (0b1001#128).getLsbD j = false) ∧
    (4 ≤ 4 ∧ countOver 4 (fun j => (0b1111#4).getLsbD j) = 4) := by
  refine ⟨⟨by decide, by decide, by decide, fun j hj => ?_⟩, by decide, by decide⟩
  by_cases h : j < 128
  · have hz : ∀ j < 128, 4 ≤ j → (0b1001#128).getLsbD j = false := by decide +kernel
    exact hz j h hj
  · exact BitVec.getLsbD_of_ge _ _ (by omega)

theorem witness_MulgWritesTheCodeword : unlawful.legal = false ∧ (mismatched.legal = true ∧ mismatched.keyMatches = false) ∧
    ((small 2 0xC5).legal = true ∧ (small 2 0xC5).keyMatches = true) := by decide +kernel

theorem witness_XoreAddsTheErrorPattern : unlawful.legal = false ∧ (small 2 0xC5).legal = true := by decide +kernel

theorem witness_EncapWritesTheCiphertext : unlawful.legal = false ∧
    (mismatched.legal = true ∧ mismatched.keyMatches = false) ∧
    (dry.legal = true ∧ dry.keyMatches = true ∧ dry.rndValid = false) ∧
    ((small 2 0xC5).legal = true ∧ (small 2 0xC5).keyMatches = true ∧ (small 2 0xC5).rndValid = true) := by decide +kernel

theorem witness_SyndWritesTheSyndrome : unlawful.legal = false ∧ (mismatched.legal = true ∧ mismatched.keyMatches = false) ∧
    ((small 2 0xC5).legal = true ∧ (small 2 0xC5).keyMatches = true) := by decide +kernel

/-- Vectors D1 (pe = t, the boundary of the direct accept) and D4 (pe = t + 1, the search). -/
theorem witness_DecodeAcceptsOrSearches : unlawful.legal = false ∧ (mismatched.legal = true ∧ mismatched.keyMatches = false) ∧
    ((small 2 0xC5).legal = true ∧ (small 2 0xC5).keyMatches = true ∧ (small 2 0xC5).parityErrors = (small 2 0xC5).t) ∧
    ((small 1 0x67).legal = true ∧ (small 1 0x67).keyMatches = true ∧
      (small 1 0x67).parityErrors = (small 1 0x67).t + 1) := by decide +kernel

theorem witness_CodewordBeginsWithTheMessage : 128 ≤ KMAX ∧ 64 ≤ RMAX ∧ 127 < 128 := by decide

theorem witness_ErrorPartitionFits : (small 0 0).legal = true ∧ (small 4 0).legal = true ∧ (small 8 0).legal = true := by
  decide +kernel

/-- t = 0, t = n - k, t = n - k + 1 and t = n meet the clauses. -/
theorem witness_GeneCornerCases : ∀ t ∈ [(0 : Half), 4, 5, 8], (small t 0).legal = true ∧ (small t 0).rndValid = true ∧
    ∃ u, exec .gene (small t 0) = .next u := by
  intro t ht
  simp at ht
  rcases ht with rfl | rfl | rfl | rfl <;> exact ⟨by decide +kernel, rfl, exec_next _ _⟩

theorem small_ready (t : Half) (c : BitVec NMAX) (i : Instr) (h : (small t c).legal = true) : (small t c).ready i :=
  State.ready_of h (fun _ => rfl) fun _ => rfl

theorem witness_ErrorWeightIsExactlyT : ∀ i ∈ [Instr.gene, .encap], (i = .gene ∨ i = .encap) ∧
    (small 4 0).ready i ∧ (small 4 0).t = (small 4 0).n - (small 4 0).k ∧ ∃ u, exec i (small 4 0) = .next u := by
  intro i hi
  simp at hi
  exact ⟨hi, small_ready _ _ _ (by decide +kernel), by decide, exec_next _ _⟩

/-- The zero message, the unit message of the last position, and a message with bits above k. -/
theorem witness_MulgCornerCases : (small 2 0).legal = true ∧ (small 2 0).keyMatches = true ∧
    (∃ u, exec .mulg (small 2 0) = .next u) ∧ (∀ j, j < 4 → (small 2 0).regM.getLsbD j = false) ∧
    (∃ u, exec .mulg { small 2 0 with regM := 0x8 } = .next u) ∧ 3 < (small 2 0).k ∧
    (∀ j, j < 4 → (0x8#128).getLsbD j = decide (j = 3)) ∧
    (∀ j, j < 4 → (0xFFFF8#128).getLsbD j = (0x8#128).getLsbD j) ∧
    (∃ u, exec .mulg { small 2 0 with regM := 0xFFFF8 } = .next u) :=
  ⟨by decide +kernel, by decide +kernel, exec_next _ _, by decide +kernel, exec_next _ _, by decide, by decide +kernel,
    by decide +kernel, exec_next _ _⟩

theorem witness_XoreTwiceRestores : (small 2 0x65).legal = true ∧ (small 2 0x65).regE = 0 ∧
    ∃ u, exec .xore (small 2 0x65) = .next u := ⟨by decide +kernel, rfl, exec_next _ _⟩

theorem witness_EncapEqualsItsParts : ((small 2 0).legal = true ∧ (small 2 0).rndValid = true ∧ (small 2 0).keyMatches = true) ∧
    (mismatched.legal = true ∧ mismatched.rndValid = true ∧ mismatched.keyMatches = false) := by decide +kernel

/-- Both ways to a ciphertext; with t = 2 the information part of E is empty on the first, and E = 0xA0 gives it on
the second. -/
theorem witness_CiphertextStructure : (small 2 0).legal = true ∧ (small 2 0).keyMatches = true ∧
    ((small 2 0).rndValid = true ∧ ∃ u, exec .encap (small 2 0) = .next u) ∧
    (∃ w, exec .mulg { small 2 0 with regE := 0xA0 } = .next w ∧ ∃ u, exec .xore w = .next u ∧
      (∀ j, j < 4 → u.regE.getLsbD j = false)) := by
  refine ⟨by decide +kernel, by decide +kernel, ⟨rfl, exec_next _ _⟩, ?_⟩
  exact ⟨_, exec_ready (i := .mulg) (small_ready 2 0 _ (by decide +kernel)), _,
    exec_ready (i := .xore) (State.ready_of (by decide +kernel) (by decide) (by decide)), by decide +kernel⟩

/-- C = 0xC5 is the codeword of 5 with the error 0xA0; C = 0x65 has no error (95_test_vectors.md 2.9). -/
theorem witness_SyndromeDependsOnlyOnTheError : ∀ p ∈ [((0xC5 : BitVec NMAX), (0xA0 : BitVec NMAX)), (0x65, 0)],
    (small 2 p.1).legal = true ∧ (small 2 p.1).keyMatches = true ∧
    (∀ j, j < 4 → (small 2 p.1).regC.getLsbD j = ((0x5#128).getLsbD j ^^ p.2.getLsbD j)) ∧
    (∀ j, j < 4 → (small 2 p.1).regC.getLsbD (4 + j) =
      (productBit (small 2 p.1).matP 4 (fun i => (0x5#128).getLsbD i) j ^^ p.2.getLsbD (4 + j))) ∧
    (∀ j, j < 4 → p.2.getLsbD j = false) ∧ ∃ u, exec .synd (small 2 p.1) = .next u := by
  intro p hp
  simp only [List.mem_cons, List.not_mem_nil, or_false] at hp
  rcases hp with rfl | rfl <;>
    exact ⟨by decide +kernel, by decide +kernel, by decide +kernel, by decide +kernel, by decide +kernel, exec_next _ _⟩

theorem witness_SyndCornerCases : (small 2 0xC5).legal = true ∧ (small 2 0xC5).keyMatches = true ∧
    (∃ u, exec .synd (small 2 0xC5) = .next u) ∧ (∀ j, j < 8 → (0xF00C5 : BitVec NMAX).getLsbD j = (small 2 0xC5).regC.getLsbD j) ∧
    (∃ u, exec .synd { small 2 0xC5 with regC := 0xF00C5 } = .next u) :=
  ⟨by decide +kernel, by decide +kernel, exec_next _ _, by decide +kernel, exec_next _ _⟩

theorem witness_ProbeCountIsRowDistance : (small 2 0xC5).legal = true ∧ 3 < (small 2 0xC5).k ∧ ¬ 4 < (small 2 0xC5).k := by
  decide +kernel

/-- Vector D1 with weight 2 = t, and t = n - k for the draw. -/
theorem witness_EncapThenDecodeRecoversTheMessage : (small 2 0xC5).legal = true ∧ (small 2 0xC5).keyMatches = true ∧
    (∀ j, j < 4 → (small 2 0xC5).regC.getLsbD j = (0x5#128).getLsbD j) ∧
    (∀ j, j < 4 → (small 2 0xC5).regC.getLsbD (4 + j) =
      (productBit (small 2 0xC5).matP 4 (fun i => (0x5#128).getLsbD i) j ^^ (0xA0#192).getLsbD (4 + j))) ∧
    countOver 4 (fun j => (0xA0#192).getLsbD (4 + j)) = (small 2 0xC5).t ∧
    ((small 4 0).legal = true ∧ (small 4 0).keyMatches = true ∧ (small 4 0).rndValid = true ∧
      (small 4 0).t = (small 4 0).n - (small 4 0).k) := by decide +kernel

/-- Vectors D2 (no error) and D5 (an error), both with t = 0. -/
theorem witness_ZeroWeightBoundary : ((small 0 0x65).legal = true ∧ (small 0 0x65).keyMatches = true ∧ (small 0 0x65).t = 0 ∧
      (∃ u, exec .decode (small 0 0x65) = .next u) ∧ ∀ j, j < 4 → (small 0 0x65).regC.getLsbD (4 + j) =
        productBit (small 0 0x65).matP 4 (fun i => (small 0 0x65).regC.getLsbD i) j) ∧
    ((small 0 0x64).legal = true ∧ (small 0 0x64).keyMatches = true ∧ (small 0 0x64).t = 0 ∧
      (∃ u, exec .decode (small 0 0x64) = .next u) ∧ (small 0 0x64).regC.getLsbD (4 + 3) ≠
        productBit (small 0 0x64).matP 4 (fun i => (small 0 0x64).regC.getLsbD i) 3) :=
  ⟨⟨by decide +kernel, by decide +kernel, by decide, exec_next _ _, by decide +kernel⟩,
    by decide +kernel, by decide +kernel, by decide, exec_next _ _, by decide +kernel⟩

/-- C = 0x65 XOR e is the received word of m = 5 (95_test_vectors.md 2.10: D4 and D9). -/
theorem witness_LimitsOfCorrection_weights : ∀ p ∈ [((0x67 : BitVec NMAX), (0x02 : BitVec NMAX)), (0x66, 0x03)],
    (small 1 p.1).legal = true ∧ (small 1 p.1).keyMatches = true ∧
    (∀ j, j < 4 → (small 1 p.1).regC.getLsbD j = ((0x5#128).getLsbD j ^^ p.2.getLsbD j)) ∧
    (∀ j, j < 4 → (small 1 p.1).regC.getLsbD (4 + j) =
      (productBit (small 1 p.1).matP 4 (fun i => (0x5#128).getLsbD i) j ^^ p.2.getLsbD (4 + j))) ∧
    (p.2 = 0x03 → 2 ≤ countOver 4 (fun j => p.2.getLsbD j)) ∧
    (p.2 = 0x02 → (∀ j, j < 4 → p.2.getLsbD j = decide (j = 1)) ∧ (∀ j, j < 4 → p.2.getLsbD (4 + j) = false) ∧
      ∃ u, exec .decode (small 1 p.1) = .next u ∧
        (u.regD == 0x5 && u.regD.getLsbD 1 != (small 1 p.1).regC.getLsbD 1) = true) := by
  intro p hp
  simp only [List.mem_cons, List.not_mem_nil, or_false] at hp
  rcases hp with rfl | rfl
  · exact ⟨by decide +kernel, by decide +kernel, by decide +kernel, by decide +kernel, by decide +kernel, fun _ =>
      ⟨by decide +kernel, by decide +kernel, exists_of_after (by decide +kernel)⟩⟩
  · exact ⟨by decide +kernel, by decide +kernel, by decide +kernel, by decide +kernel, by decide +kernel, fun h =>
      absurd h (by decide)⟩

/-- An information error at position 16, the first outside the window, under (18, 17, 0) and a zero key. -/
theorem witness_LimitsOfCorrection_window : (wide 0 0x10000).legal = true ∧ (wide 0 0x10000).keyMatches = true ∧
    (∀ j, j < 17 → (wide 0 0x10000).regC.getLsbD j = (false ^^ decide (j = 16))) ∧
    (∀ j, j < 1 → (wide 0 0x10000).regC.getLsbD (17 + j) =
      (productBit (wide 0 0x10000).matP 17 (fun _ => false) j ^^ decide (17 + j = 16))) ∧
    16 < (wide 0 0x10000).k ∧ min 16 (wide 0 0x10000).k ≤ 16 ∧ ∃ u, exec .decode (wide 0 0x10000) = .next u :=
  ⟨by decide +kernel, by decide +kernel, by decide +kernel, by decide +kernel, by decide, by decide, exec_next _ _⟩

theorem witness_LargeWeightNeverSearches : ((small 4 0xFF).legal = true ∧ (small 4 0xFF).keyMatches = true ∧
      (small 4 0xFF).n - (small 4 0xFF).k = (small 4 0xFF).t) ∧
    ((small 5 0).legal = true ∧ (small 5 0).keyMatches = true ∧ (small 5 0).n - (small 5 0).k < (small 5 0).t ∧
      (small 5 0).rndValid = true) := by decide +kernel

/-- The second state differs in M, E, S, D and STATUS only. -/
theorem witness_DecodeCornerCases : (small 1 0x67).legal = true ∧ (small 1 0x67).keyMatches = true ∧
    (∃ u, exec .decode (small 1 0x67) = .next u) ∧
    ∃ u, exec .decode { small 1 0x67 with regM := 0x9, regE := 0x3, regS := 0x1, regD := 0x2, ie := true } = .next u :=
  ⟨by decide +kernel, by decide +kernel, exec_next _ _, exec_next _ _⟩

theorem witness_WrongDecodeIsNoError : (small 2 0x67).legal = true ∧ (small 2 0x67).keyMatches = true := by decide +kernel

/-- For every command that reads the register file: two states that differ only above the valid lengths. -/
theorem witness_OnlyValidBitsMatter : ∀ i : Instr, i ≠ .nop →
    (small 2 0xC5).agreesOnInputs { small 2 0xFFFFC5 with regM := 0xF0, regE := 0xF00 } ∧
    (small 2 0xC5).ready i ∧ ({ small 2 0xFFFFC5 with regM := 0xF0, regE := 0xF00 } : State).ready i ∧
    (∃ u, exec i (small 2 0xC5) = .next u) ∧
    ∃ u, exec i { small 2 0xFFFFC5 with regM := 0xF0, regE := 0xF00 } = .next u := by
  intro i _
  refine ⟨⟨rfl, rfl, rfl, rfl, rfl, rfl, ?_, ?_, ?_, fun _ _ _ _ => rfl⟩, small_ready _ _ _ (by decide +kernel),
    State.ready_of (by decide +kernel) (fun _ => rfl) fun _ => rfl, exec_next _ _, exec_next _ _⟩
  · show ∀ j, j < 4 → _; decide +kernel
  · show ∀ j, j < 8 → _; decide +kernel
  · show ∀ j, j < 8 → _; decide +kernel

/-- Another size at a good offset, and a bad offset with the right size. -/
theorem witness_BusErrorHasNoEffect :
    ((facing State.reset [.bus ⟨true, 0x01C, 1, 0⟩]).inputs = [.bus ⟨true, 0x01C, 1, 0⟩] ∧ (1 : BitVec 2) ≠ 2) ∧
    ((facing State.reset [.bus ⟨false, 0xFFE, 2, 0⟩]).inputs = [.bus ⟨false, 0xFFE, 2, 0⟩] ∧
      (0xFFE : BitVec 12).toNat % 4 ≠ 0) := ⟨⟨rfl, by decide⟩, rfl, by decide⟩

theorem witness_IssueLatchesOrIsDropped :
    ((facing (small 2 0) [wr 0x01C 0xFFFFFFFF]).inputs = [wr 0x01C 0xFFFFFFFF] ∧
      (facing (small 2 0) [wr 0x01C 0xFFFFFFFF]).status.busy = false) ∧
    ((flying (small 2 0) 4 [wr 0x01C 0]).inputs = [wr 0x01C 0] ∧
      (flying (small 2 0) 4 [wr 0x01C 0]).status.busy = true) := ⟨⟨rfl, rfl⟩, rfl, rfl⟩

/-- The last word of each group. -/
theorem witness_BusyDataWriteIsDropped :
    (∀ off ∈ [0x010, 0x024, 0x10C, 0x154, 0x194, 0x400, 0x7FC], dataOffset off ∧
      (flying (small 2 0) 4 [wr off 1]).inputs = [wr off 1] ∧ (flying (small 2 0) 4 [wr off 1]).status.busy = true) ∧
    (∀ off ∈ [0x000, 0x030, 0x1C0, 0x1FC, 0x23C], readOnlyOffset off) ∧
    (∀ off ∈ [0x034, 0x0FC, 0x110, 0x240, 0x3FC, 0x800, 0xFFC], reservedOffset off) :=
  ⟨fun off h => ⟨(by decide : ∀ off ∈ [0x010, 0x024, 0x10C, 0x154, 0x194, 0x400, 0x7FC], dataOffset off) off h, rfl, rfl⟩,
    by decide, by decide⟩

/-- A word at each register; the last word of each window. -/
theorem witness_IdleWriteStoresTheWord :
    (∀ off ∈ [0x010, 0x014, 0x018, 0x020, 0x024, 0x10C, 0x154, 0x194, 0x7FC],
      (facing (small 2 0) [wr off 0xFFFFFFFF]).inputs = [wr off 0xFFFFFFFF] ∧
      (facing (small 2 0) [wr off 0xFFFFFFFF]).status.busy = false) ∧
    (3 < 4 ∧ 0x10C = 0x100 + 4 * 3) ∧ (5 < 6 ∧ 0x154 = 0x140 + 4 * 5) ∧ (5 < 6 ∧ 0x194 = 0x180 + 4 * 5) ∧
    (127 < 128 ∧ 1 < 2 ∧ 0x7FC = 0x400 + 8 * 127 + 4 * 1) := by
  refine ⟨fun off _ => ⟨rfl, rfl⟩, by decide⟩

/-- Unstable registers while busy, and every kind of offset while idle or stable. -/
theorem witness_ReadAnswersTheRegisterMap :
    (∀ off ∈ [0x020, 0x02C, 0x030, 0x100, 0x10C, 0x154, 0x194, 0x1C4, 0x20C, 0x7FC],
      unstableOffset off ∧ off % 4 = 0 ∧ off < 0x1000 ∧ (flying (small 2 0) 4 [rd off]).inputs = [rd off] ∧
      (flying (small 2 0) 4 [rd off]).status.busy = true ∧ (facing (small 2 0) [rd off]).status.busy = false) ∧
    (∀ off ∈ [0x000, 0x004, 0x008, 0x00C, 0x010, 0x018, 0x01C, 0x034, 0x110, 0x1C8, 0xFFC],
      ¬ unstableOffset off ∧ off % 4 = 0 ∧ off < 0x1000 ∧ (flying (small 2 0) 4 [rd off]).inputs = [rd off]) ∧
    (∀ off ∈ [0x034, 0x110, 0x1C8, 0xFFC], reservedOffset off) := by
  have hu : ∀ off ∈ [0x020, 0x02C, 0x030, 0x100, 0x10C, 0x154, 0x194, 0x1C4, 0x20C, 0x7FC],
    unstableOffset off ∧ off % 4 = 0 ∧ off < 0x1000 := by decide
  have hs : ∀ off ∈ [0x000, 0x004, 0x008, 0x00C, 0x010, 0x018, 0x01C, 0x034, 0x110, 0x1C8, 0xFFC],
    ¬ unstableOffset off ∧ off % 4 = 0 ∧ off < 0x1000 := by decide
  exact ⟨fun off h => ⟨(hu off h).1, (hu off h).2.1, (hu off h).2.2, rfl, rfl, rfl⟩,
    fun off h => ⟨(hs off h).1, (hs off h).2.1, (hs off h).2.2, rfl⟩, by decide⟩

theorem witness_StatusLayoutAndClearing : (flying (small 2 0) 4 [wr 0x00C 0xE]).inputs = [wr 0x00C 0xE] := rfl

theorem witness_ControlWriteStoresIeOrResets :
    ((facing (small 2 0) [wr 0x008 1]).inputs = [wr 0x008 1] ∧ (1 : Word).getLsbD 1 = false) ∧
    ((flying (small 2 0) 4 [wr 0x008 3]).inputs = [wr 0x008 3] ∧ (3 : Word).getLsbD 1 = true) :=
  ⟨⟨rfl, by decide⟩, rfl, by decide⟩

theorem witness_HardwareResetClearsEverything :
    (flying (small 2 0xC5) 8 [.hwReset, .engine]).inputs = .hwReset :: [.engine] := rfl

/-- A command but NOP; a key-using command under the smallest legal parameter set. -/
theorem witness_ResetStateRefusesCommands : Instr.decode ≠ .nop ∧ usesKey .mulg = true ∧
    Machine.legal (2 : Half).toNat (1 : Half).toNat (0 : Half).toNat = true := by decide

theorem witness_WindowBytesAreLittleEndian : 7 < 8 ∧ 15 < 16 ∧ 23 < 24 ∧ 7 < 8 ∧ 1023 < 1024 := by decide

/-- The same word, and the two words of one row at the end of P. -/
theorem witness_KeyWordReadsBack : ∀ off ∈ [0x7F8, 0x7FC],
    (facing (small 2 0) [wr 0x7FC 0xABCDEF01, rd off]).inputs = wr 0x7FC 0xABCDEF01 :: rd off :: [] ∧
    (facing (small 2 0) [wr 0x7FC 0xABCDEF01, rd off]).status.busy = false ∧
    0x400 ≤ off ∧ off ≤ 0x7FC ∧ off % 4 = 0 ∧ 0x7FC % 4 = 0 := by
  intro off h
  simp at h
  rcases h with rfl | rfl <;> exact ⟨rfl, rfl, by decide, by decide, by decide, by decide⟩

theorem witness_IrqIsEnableAndDone :
    ((flying (small 2 0) 4 [wr 0x01C 0]).inputs = [wr 0x01C 0] ∧ ∃ t, step (flying (small 2 0) 4 [wr 0x01C 0]) = .next t) ∧
    ((facing (small 2 0) [wr 0x00C 2]).inputs = [wr 0x00C 2] ∧ ∃ t, step (facing (small 2 0) [wr 0x00C 2]) = .next t) :=
  ⟨⟨rfl, _, step_bus rfl⟩, rfl, _, step_bus rfl⟩

/-- A command write, a STATUS write, a data write, a read and a soft reset, each right before the completion. -/
theorem witness_HostFirstThenCompletion :
    (∀ x ∈ [wr 0x01C 0, wr 0x00C 0xE, wr 0x7FC 1, rd 0x200, wr 0x008 2], ∃ y, x = .bus y ∧
      (flying (small 2 0xC5) 8 [x, .engine]).inputs = .bus y :: .engine :: [] ∧
      (flying (small 2 0xC5) 8 [x, .engine]).status.busy = true ∧ (flying (small 2 0xC5) 8 [x, .engine]).rndValid = true) ∧
    dataOffset 0x7FC ∧ (2 : Word).getLsbD 1 = true := by
  refine ⟨?_, by decide, by decide⟩
  intro x hx
  simp only [List.mem_cons, List.not_mem_nil, or_false] at hx
  rcases hx with rfl | rfl | rfl | rfl | rfl <;> exact ⟨_, rfl, rfl, rfl, rfl⟩

/-- A write to P while idle changes the key: row 0 held 0xD. -/
theorem witness_KeyChangesOnlyByGenpWriteOrReset :
    ∃ t, step (facing (small 2 0) [wr 0x400 0]) = .next t ∧ (t.matP != (small 2 0).matP) = true :=
  exists_of_after (by decide +kernel)

theorem witness_ReadsChangeNoRegister : ∀ s ∈ [facing (small 2 0) [rd 0x200], flying (small 2 0) 4 [rd 0x200]], ∃ x,
    s.inputs = .bus x :: [] ∧ x.we = false ∧ ∃ t, step s = .next t := by
  intro s hs
  simp only [List.mem_cons, List.not_mem_nil, or_false] at hs
  rcases hs with rfl | rfl <;> exact ⟨_, rfl, rfl, _, step_bus rfl⟩

/-- DONE, ERR, OVR and an error code set, and a host write to come. -/
theorem witness_StepKeepsStatusCoherent : ({ facing (small 2 0) [wr 0x01C 4] with
      status := ⟨false, true, true, true, 3, 4⟩ } : State).statusCoherent ∧
    ∃ t, step { facing (small 2 0) [wr 0x01C 4] with status := ⟨false, true, true, true, 3, 4⟩ } = .next t :=
  ⟨⟨fun _ => rfl, fun _ => ⟨rfl, by decide⟩, by decide⟩, _, step_bus rfl⟩

/-- The results of vector D4 in the registers, and another DECODE in flight. -/
theorem witness_StepKeepsResultsInRange :
    ({ flying (small 1 0x21) 8 [] with decStat := 0x00000103, searchCnt := 2, syndWt := 2 } : State).resultsInRange ∧
    ∃ t, step { flying (small 1 0x21) 8 [] with decStat := 0x00000103, searchCnt := 2, syndWt := 2 } = .next t :=
  ⟨by unfold State.resultsInRange; decide +kernel, _, (step_engine (.inr ⟨rfl, rfl⟩)).trans
    ((engineTurn_instr (i := .decode) rfl (by decide +kernel)).trans (exec_ready (small_ready 1 0x21 .decode (by decide +kernel))))⟩

end Sys2Proof.Tests
end

namespace Sys2Proof.Proofs.Scope

open Sys2Proof.Machine Sys2Proof.Config

/-- Settles O10 (00_scope.md R7): `legal_iff` gives the five bounds in terms of the capacities of R8, and those are
KMAX = 128 and RMAX = 64. -/
theorem legalIsFiveBounds : Obligations.LegalIsFiveBounds := by
  intro n k t
  have hKMAX : KMAX = 128 := rfl
  have hRMAX : RMAX = 64 := rfl
  rw [legal_iff, hKMAX, hRMAX]

end Sys2Proof.Proofs.Scope

namespace Sys2Proof.Proofs.StateRules

open Sys2Proof.Machine Sys2Proof.Config

/-! ### The engine's turn (10_state.md R44, R49) -/

/-- Settles O5 (10_state.md R44, R48): the turn runs what `inFlight` decodes, and it decodes CMD_IF. -/
theorem engineStepRunsTheDecodedCommand : Obligations.EngineStepRunsTheDecodedCommand := by
  intro s rest i _ hnext hbusy hdecode
  rw [step_engine hnext]
  exact engineTurn_instr hbusy hdecode

/-- Settles O6 (10_state.md R49, 70_reset_and_hazards.md R210). -/
theorem idleEngineDoesNothing : Obligations.IdleEngineDoesNothing := by
  intro s rest hnext hidle
  rw [step_engine hnext]
  exact engineTurn_idle hidle

/-- t is s with its command completed, in success or in error: STATUS tells of the completion (10_state.md R44). -/
def isCompletionOf (s t : State) : Prop :=
  t.status.busy = false ∧ t.status.done = true ∧ t.status.lastop = s.cmdIf.extractLsb' 0 8 ∧
  t.status.ovr = s.status.ovr ∧ (t.status.err = false ↔ t.status.errcode = 0) ∧ t.inputs = s.inputs ∧
  t.irq = s.ie

/-- Every error has a code of its own, and none is 0 (60_exceptions.md R181). -/
theorem code_ne_zero (e : CmdError) : e.code ≠ 0 := by
  cases e <;> decide

theorem succeed_isCompletionOf (i : Instr) (s : State) : isCompletionOf s (effect i s).succeed :=
  ⟨rfl, rfl, by simp, by simp, by simp, by simp, by simp⟩

theorem enterError_isCompletionOf (s : State) (e : CmdError) : isCompletionOf s (s.enterError e) :=
  ⟨rfl, rfl, rfl, rfl, by simpa using code_ne_zero e, rfl, by simp⟩

/-- With the random source live no command waits. -/
theorem exec_isCompletionOf {i : Instr} {s t : State} (hlive : s.rndValid = true) (h : exec i s = .next t) :
    isCompletionOf s t := by
  rcases exec_cases h with ⟨_, e, _, rfl⟩ | ⟨_, rfl⟩ | ⟨_, _, hdry, _⟩
  · exact enterError_isCompletionOf s e
  · exact succeed_isCompletionOf i s
  · rw [hlive] at hdry; cases hdry

theorem engineTurn_isCompletionOf {s : State} (hbusy : s.status.busy = true) (hlive : s.rndValid = true) :
    ∃ t, engineTurn s = .next t ∧ isCompletionOf s t := by
  cases hword : s.inFlight with
  | instr i =>
    obtain ⟨t, ht⟩ := exec_next i s
    exact ⟨t, (engineTurn_instr hbusy hword).trans ht, exec_isCompletionOf hlive ht⟩
  | illegal why => exact ⟨_, engineTurn_illegal hbusy hword, enterError_isCompletionOf s _⟩

/-- Settles O8 (10_state.md R27 to R32, R44): a command and an illegal word both end in a completion. -/
theorem liveEngineTurnCompletes : Obligations.LiveEngineTurnCompletes := by
  intro s rest hnext hbusy hlive
  rw [step_engine hnext]
  exact engineTurn_isCompletionOf (s := { s with inputs := rest }) hbusy hlive

/-! ### Writes while busy, and writes that are ignored (10_state.md R43, R47) -/

theorem whenIdle_of_idle {s : State} (h : s.status.busy = false) (s' : State) : s.whenIdle s' = s' := by
  simp [State.whenIdle, h]

theorem whenIdle_of_busy {s : State} (h : s.status.busy = true) (s' : State) : s.whenIdle s' = s.dropWrite := by
  simp [State.whenIdle, h]

/-- A write that is the next input: its effect, and the response OKAY (20_memory.md R65). -/
theorem step_wr_of_effect {s s' : State} {off : Nat} {v : Word} {rest : List Input} (h : s.inputs = wr off v :: rest)
    (h4 : off % 4 = 0) (hlt : off < 0x1000) (heffect : writeEffect { s with inputs := rest } (regAt off) v = s') :
    step s = .next { s' with resp := some .okWrite } := by
  rw [step_wr h h4 hlt, ← heffect]; rfl

/-- Settles O43 (10_state.md R43): CMD stands at 0x01C, and its write is `issue` guarded by `whenIdle`. -/
theorem issueLatchesOrIsDropped : Obligations.IssueLatchesOrIsDropped := by
  intro s v rest hwr
  refine ⟨fun hidle => ?_, fun hbusy => ?_⟩
  · exact step_wr_of_effect hwr rfl (by decide) (whenIdle_of_idle (s := { s with inputs := rest }) hidle _)
  · exact step_wr_of_effect hwr rfl (by decide) (whenIdle_of_busy (s := { s with inputs := rest }) hbusy _)

/-- The write of every input register is guarded by `whenIdle`. -/
theorem writeEffect_inputReg_of_busy {s : State} {r : Reg} (hr : inputReg r = true) (hbusy : s.status.busy = true)
    (v : Word) : writeEffect s r v = s.dropWrite := by
  cases r with
  | paramN | paramK | paramT | keyN | keyK | m | e | c | p => exact whenIdle_of_busy hbusy _
  | id | cap | ctrl | status | cmd | syndWt | decStat | searchCnt | s | d | reserved => cases hr

theorem readOnlyOffset_lt {off : Nat} (h : readOnlyOffset off) : off < 0x1000 := by
  obtain ⟨_, h | h | h⟩ := h
  · simp at h; omega
  all_goals omega

theorem reservedOffset_lt {off : Nat} (h : reservedOffset off) : off < 0x1000 := by
  obtain ⟨_, h⟩ := h; omega

theorem writeEffect_reserved {off : Nat} (h : reservedOffset off) (s : State) (v : Word) :
    writeEffect s (regAt off) v = s := by
  rw [regAt_reserved off h (reservedOffset_lt h)]; rfl

/-- Settles O44 (10_state.md R47, 20_memory.md R65, R66). -/
theorem busyDataWriteIsDropped : Obligations.BusyDataWriteIsDropped := by
  intro s off v rest hwr
  refine ⟨fun hdata hbusy => ?_, fun h => ?_⟩
  · exact step_wr_of_effect hwr hdata.1 (dataOffset_lt hdata)
      (writeEffect_inputReg_of_busy (s := { s with inputs := rest }) (regAt_data off hdata) hbusy v)
  · rcases h with hro | hres
    · exact step_wr_of_effect hwr hro.1 (readOnlyOffset_lt hro) (writeEffect_readOnly off hro _ v)
    · exact step_wr_of_effect hwr hres.1 (reservedOffset_lt hres) (writeEffect_reserved hres _ v)

/-! ### STATUS (10_state.md R26) -/

/-- A field of a register word occupies the bits from `lo` up and no other. -/
theorem field_getLsbD {w : Nat} (x : BitVec w) (lo j : Nat) (h : lo + w ≤ 32) :
    (x.setWidth 32 <<< lo).getLsbD j = if lo ≤ j ∧ j < lo + w then x.getLsbD (j - lo) else false := by
  rw [BitVec.getLsbD_shiftLeft, BitVec.getLsbD_setWidth]
  by_cases hin : lo ≤ j ∧ j < lo + w
  · have h1 : j < 32 := by omega
    have h2 : ¬ j < lo := by omega
    have h3 : j - lo < 32 := by omega
    simp [hin, h1, h2, h3]
  · rw [if_neg hin]
    by_cases hlo : j < lo
    · simp [hlo]
    · rw [BitVec.getLsbD_of_ge x (j - lo) (by omega)]; simp

theorem bitAt_getLsbD (x : Bool) (b j : Nat) (hb : b < 32) : (bitAt x b).getLsbD j = if j = b then x else false := by
  rw [bitAt, field_getLsbD _ _ _ (by omega)]
  by_cases h : j = b
  · simp [h]
  · rw [if_neg h, if_neg (by omega)]

theorem word_getLsbD (f : Status) (b : Nat) : f.word.getLsbD b =
    if b = 0 then f.busy else if b = 1 then f.done else if b = 2 then f.err else if b = 3 then f.ovr
    else if 8 ≤ b ∧ b ≤ 11 then f.errcode.getLsbD (b - 8)
    else if 16 ≤ b ∧ b ≤ 23 then f.lastop.getLsbD (b - 16) else false := by
  have herrcode : (8 ≤ b ∧ b < 8 + 4) ↔ (8 ≤ b ∧ b ≤ 11) := by omega
  have hlastop : (16 ≤ b ∧ b < 16 + 8) ↔ (16 ≤ b ∧ b ≤ 23) := by omega
  simp only [Status.word, BitVec.getLsbD_or, bitAt_getLsbD _ _ _ (show 0 < 32 by decide),
    bitAt_getLsbD _ _ _ (show 1 < 32 by decide), bitAt_getLsbD _ _ _ (show 2 < 32 by decide),
    bitAt_getLsbD _ _ _ (show 3 < 32 by decide), field_getLsbD _ 8 b (show 8 + 4 ≤ 32 by decide),
    field_getLsbD _ 16 b (show 16 + 8 ≤ 32 by decide), herrcode, hlastop]
  by_cases hflag : b ≤ 3
  · interval_cases b <;> simp
  · have h0 : b ≠ 0 := by omega
    have h1 : b ≠ 1 := by omega
    have h2 : b ≠ 2 := by omega
    have h3 : b ≠ 3 := by omega
    by_cases hcode : 8 ≤ b ∧ b ≤ 11
    · have : ¬ (16 ≤ b ∧ b ≤ 23) := by omega
      simp [h0, h1, h2, h3, hcode, this]
    · simp [h0, h1, h2, h3, hcode]

/-- The rule's own words for a write-1-to-clear field (10_state.md R26). -/
theorem clearWritten_eq (f : Status) (v : Word) : f.clearWritten v =
    { f with
      done := if v.getLsbD 1 then false else f.done
      err := if v.getLsbD 2 then false else f.err
      ovr := if v.getLsbD 3 then false else f.ovr } := by
  simp [Status.clearWritten, Bool.and_comm]

/-- Settles O47 (10_state.md R26). -/
theorem statusLayoutAndClearing : Obligations.StatusLayoutAndClearing := by
  refine ⟨by decide, word_getLsbD, fun s v rest hwr => ?_⟩
  rw [← clearWritten_eq]
  exact step_wr_of_effect hwr rfl (by decide) rfl

/-! ### Subset draws (10_state.md R45) -/

/-- Settles O18 (10_state.md R45): the size is `onesBelow_exactly`; a target of the shape is its own raw draw. -/
theorem subsetDrawHasEveryShape : Obligations.SubsetDrawHasEveryShape := by
  intro len b raw target need hb hneed
  refine ⟨⟨?_, fun j hj => exactly_getLsbD_ge raw b need j hj⟩, fun hcount hzero => ⟨target, ?_⟩⟩
  · rw [← onesBelow_eq_countOver, onesBelow_exactly raw b need hb hneed]
  · rw [← onesBelow_eq_countOver] at hcount
    apply BitVec.eq_of_getLsbD_eq
    intro j _
    by_cases hj : j < b
    · rw [← hcount, exactly_of_shape target b hb j hj]
    · rw [exactly_getLsbD_ge target b need j (by omega), hzero j (by omega)]

/-! ### What every step keeps (10_state.md R26, R34 to R36) -/

/-- Settles O58 (10_state.md R26): at reset no flag is set and ERRCODE is 0. -/
theorem resetIsStatusCoherent : Obligations.ResetIsStatusCoherent :=
  ⟨nofun, nofun, .inl rfl⟩

/-- t has the values of s in SYND_WT, SEARCH_CNT and DEC_STAT. -/
def sameResults (s t : State) : Prop :=
  t.syndWt = s.syndWt ∧ t.searchCnt = s.searchCnt ∧ t.decStat = s.decStat

theorem resultsInRange_of_same {s t : State} (h : sameResults s t) (hs : s.resultsInRange) : t.resultsInRange := by
  obtain ⟨hwt, hcnt, hstat⟩ := h
  unfold State.resultsInRange
  rwa [hwt, hcnt, hstat]

theorem reset_resultsInRange : State.reset.resultsInRange :=
  ⟨by decide, by decide, by decide, by decide, by decide⟩

/-- Settles O60 (10_state.md R34 to R36). -/
theorem resetResultsInRange : Obligations.ResetResultsInRange := reset_resultsInRange

theorem resetBlock_resultsInRange (s : State) : s.resetBlock.resultsInRange :=
  resultsInRange_of_same (s := State.reset) ⟨rfl, rfl, rfl⟩ reset_resultsInRange

theorem whenIdle_sameResults {s s' : State} (h : sameResults s s') : sameResults s (s.whenIdle s') := by
  rcases s.whenIdle_cases s' with ⟨_, hstored⟩ | ⟨_, hdropped⟩
  · rwa [hstored]
  · rw [hdropped]; exact ⟨rfl, rfl, rfl⟩

theorem writeCtrl_resultsInRange {s : State} (hs : s.resultsInRange) (v : Word) :
    (writeCtrl s v).resultsInRange := by
  unfold writeCtrl
  split
  · exact resetBlock_resultsInRange s
  · exact resultsInRange_of_same ⟨rfl, rfl, rfl⟩ hs

/-- No host write but a soft reset touches a result register: they are read-only (10_state.md R34 to R36). -/
theorem writeEffect_resultsInRange {s : State} (hs : s.resultsInRange) (r : Reg) (v : Word) :
    (writeEffect s r v).resultsInRange := by
  cases r with
  | ctrl => exact writeCtrl_resultsInRange hs v
  | status => exact resultsInRange_of_same ⟨rfl, rfl, rfl⟩ hs
  | cmd | paramN | paramK | paramT | keyN | keyK | m | e | c | p =>
    exact resultsInRange_of_same (whenIdle_sameResults ⟨rfl, rfl, rfl⟩) hs
  | id | cap | syndWt | decStat | searchCnt | s | d | reserved => exact hs

theorem transact_resultsInRange {s : State} (hs : s.resultsInRange) (x : Txn) : (transact s x).resultsInRange := by
  rcases transact_cases s x with ⟨_, h⟩ | ⟨_, _, h⟩ | ⟨_, _, h⟩
  · rw [h]; exact resultsInRange_of_same ⟨rfl, rfl, rfl⟩ hs
  · have hwrite := writeEffect_resultsInRange hs (regAt x.addr.toNat) x.wdata
    rw [h]; exact resultsInRange_of_same ⟨rfl, rfl, rfl⟩ hwrite
  · rcases readReg_cases s (regAt x.addr.toNat) with ⟨_, _, _, hread⟩ | ⟨_, hread⟩ <;>
      rw [h, hread] <;> exact resultsInRange_of_same ⟨rfl, rfl, rfl⟩ hs

/-- SYND_WT counts ones among RMAX positions (42_decapsulator.md R152). -/
theorem withSyndrome_resultsInRange {s : State} (hs : s.resultsInRange) : s.withSyndrome.resultsInRange := by
  obtain ⟨_, hcnt, hrsv, herr, hearly⟩ := hs
  refine ⟨?_, hcnt, hrsv, herr, hearly⟩
  have hle : popcount s.syndrome ≤ 64 := popcount_le s.syndrome
  rw [State.withSyndrome_syndWt, BitVec.toNat_ofNat, Nat.mod_eq_of_lt (by omega)]
  exact hle

/-- DEC_STAT and SEARCH_CNT hold a search within its bounds; EARLY is set by a probe, so PATH is set too
(10_state.md R35, R36). -/
theorem withDecision_resultsInRange {s : State} {path : Bool} {a : Search} (hwt : s.syndWt.toNat ≤ RMAX)
    (hflip : a.flip < 256) (herr : a.bestErr ≤ 64) (hcnt : a.cnt ≤ 16) (hearly : a.early = true → path = true) :
    (s.withDecision path a).resultsInRange := by
  have herr16 : a.bestErr < 65536 := by omega
  refine ⟨hwt, ?_, ?_, ?_, ?_⟩
  · rw [State.withDecision_searchCnt, BitVec.toNat_ofNat, Nat.mod_eq_of_lt (by omega)]
    exact hcnt
  · exact decStatWord_reserved path a hflip herr16
  · rw [State.withDecision_decStat, decStatWord_bestErr path a hflip herr16, BitVec.toNat_ofNat,
      Nat.mod_eq_of_lt (by omega)]
    exact herr
  · rwa [State.withDecision_decStat, decStatWord_early path a hflip herr16, decStatWord_path path a hflip herr16]

/-- Only SYND and DECODE write result registers (30_encoding.md R93). -/
theorem effect_resultsInRange {s : State} (hs : s.resultsInRange) (i : Instr) : (effect i s).resultsInRange := by
  cases i with
  | nop | genp | genm | gene | mulg | xore | encap => exact resultsInRange_of_same ⟨rfl, rfl, rfl⟩ hs
  | synd => exact withSyndrome_resultsInRange hs
  | decode =>
    obtain ⟨hflip, herr, hcnt, _⟩ := s.decision_bounds
    obtain ⟨hwt, _⟩ := withSyndrome_resultsInRange hs
    exact withDecision_resultsInRange hwt hflip herr hcnt fun hearly => by
      rw [State.accepts_of_early hearly]; rfl

theorem exec_resultsInRange {i : Instr} {s t : State} (hs : s.resultsInRange) (h : exec i s = .next t) :
    t.resultsInRange := by
  rcases exec_cases h with ⟨_, e, _, rfl⟩ | ⟨_, rfl⟩ | ⟨_, _, _, rfl⟩
  · exact resultsInRange_of_same ⟨rfl, rfl, rfl⟩ hs
  · exact resultsInRange_of_same (s := effect i s) ⟨rfl, rfl, rfl⟩ (effect_resultsInRange hs i)
  · exact hs

/-- Settles O59 (10_state.md R34 to R36, 42_decapsulator.md R152, R155), along the cases of a step. -/
theorem stepKeepsResultsInRange : Obligations.StepKeepsResultsInRange := by
  intro s t hs hstep
  have hrest (rest : List Input) : ({ s with inputs := rest } : State).resultsInRange :=
    resultsInRange_of_same ⟨rfl, rfl, rfl⟩ hs
  rcases step_cases hstep with ⟨rest, _, _, rfl⟩ | ⟨rest, i, _, _, _, hexec⟩ | ⟨rest, why, _, _, _, rfl⟩ |
    ⟨rest, x, _, rfl⟩ | ⟨rest, _, rfl⟩ | ⟨rest, v, _, rfl⟩
  case inl => exact hrest rest
  case inr.inl => exact exec_resultsInRange (hrest rest) hexec
  case inr.inr.inl => exact resultsInRange_of_same ⟨rfl, rfl, rfl⟩ (hrest rest)
  case inr.inr.inr.inl => exact transact_resultsInRange (hrest rest) x
  case inr.inr.inr.inr.inl =>
    exact resultsInRange_of_same ⟨rfl, rfl, rfl⟩ (resetBlock_resultsInRange { s with inputs := rest })
  case inr.inr.inr.inr.inr => exact resultsInRange_of_same ⟨rfl, rfl, rfl⟩ hs

/-! ### What a result depends on (10_state.md R39)

Two states that agree below the valid lengths give a command the same operands; every operation of the model
reads its operands only there, so it gives the same results. -/

/-- A slice reads the positions from a up to b only. -/
theorem slice_congr {width len : Nat} {v v' : BitVec len} {a b : Nat}
    (h : ∀ j, j < b - a → v.getLsbD (a + j) = v'.getLsbD (a + j)) : slice width v a b = slice width v' a b := by
  apply BitVec.eq_of_getLsbD_eq
  intro j _
  rw [slice_getLsbD, slice_getLsbD]
  by_cases hj : j < b - a
  · rw [h j hj]
  · simp [hj]

/-- The product reads the first k rows and r columns of the store only. -/
theorem timesP_congr {p p' : Matrix} (m : BitVec KMAX) {k r : Nat} (hr : r ≤ RMAX)
    (h : ∀ i j, i < k → j < r → entry p i j = entry p' i j) : timesP p m k r = timesP p' m k r := by
  apply BitVec.eq_of_getLsbD_eq
  intro j _
  rw [timesP_getLsbD p m k r j hr, timesP_getLsbD p' m k r j hr]
  by_cases hj : j < r
  · rw [productBit_congr k j (fun _ _ => rfl) fun i hi => h i j hi hj]
  · simp [hj]

/-- A candidate message is zero from k up, so the message DECODE keeps is (42_decapsulator.md R155, R157). -/
theorem decision_best_zero_above {s : State} (hl : s.legal = true) {j : Nat} (hj : s.k ≤ j) :
    s.decision.best.getLsbD j = false := by
  have hnot : ¬ j < s.k := by omega
  have hreceived : s.received.getLsbD j = false := by rw [State.received_getLsbD hl]; simp [hnot]
  unfold State.decision
  split
  · exact hreceived
  · obtain ⟨_, hcnt, _, _, _, _, hbest⟩ := s.search_spec (min W s.k) 0 s.noProbe rfl rfl
    rcases hbest with ⟨hkept, _⟩ | ⟨_, hflip, hflipped, _⟩
    · rw [hkept]; exact hreceived
    · have hlt : (s.search (min W s.k) 0 s.noProbe).flip < s.k := by omega
      have hne : j ≠ (s.search (min W s.k) 0 s.noProbe).flip := by omega
      rw [hflipped, State.candidate_getLsbD hl _ _ hlt]
      simp [hnot, hne]

/-- The loop sees the state through its probes only. -/
theorem search_congr {s s' : State} (h : ∀ i a, s.probe i a = s'.probe i a) (todo i : Nat) (a : Search) :
    s.search todo i a = s'.search todo i a := by
  induction todo generalizing i a with
  | zero => rfl
  | succ todo ih => simp only [State.search, h, ih]

section

variable {s s' : State} (hl : s.legal = true) (ha : s.agreesOnInputs s')

include ha in
theorem agrees_dims : s'.n = s.n ∧ s'.k = s.k ∧ s'.t = s.t := by
  obtain ⟨hn, hk, ht, _⟩ := ha
  exact ⟨congrArg BitVec.toNat hn.symm, congrArg BitVec.toNat hk.symm, congrArg BitVec.toNat ht.symm⟩

include ha in
theorem agrees_fresh : s'.fresh = s.fresh := by
  obtain ⟨_, _, _, _, _, hfresh, _⟩ := ha
  exact hfresh.symm

/-! The draws: the shape of a draw is given by the parameter set. -/

include ha in
theorem drawnKey_agrees (idx : Nat) :
    keyOfDraw s'.k (s'.n - s'.k) (s'.drawKey idx) = keyOfDraw s.k (s.n - s.k) (s.drawKey idx) := by
  obtain ⟨hn, hk, _⟩ := agrees_dims ha
  rw [State.drawKey, State.drawKey, hn, hk]

include ha in
theorem effect_key_agrees : (effect .genp s).matP = (effect .genp s').matP ∧
    (effect .genp s).keyN = (effect .genp s').keyN ∧ (effect .genp s).keyK = (effect .genp s').keyK := by
  have ⟨hn, hk, _⟩ := ha
  refine ⟨?_, hn, hk⟩
  simp only [effect, State.withKey_matP, agrees_fresh ha, drawnKey_agrees ha]

include ha in
theorem drawMessage_agrees (idx : Nat) : s'.drawMessage idx = s.drawMessage idx := by
  obtain ⟨_, hk, _⟩ := agrees_dims ha
  rw [State.drawMessage, State.drawMessage, hk]

include ha in
theorem drawError_agrees (idx : Nat) : s'.drawError idx = s.drawError idx := by
  obtain ⟨hn, hk, ht⟩ := agrees_dims ha
  simp only [State.drawError, State.drawInfo, State.drawRedundancy, State.errorsInInfo,
    State.errorsInRedundancy, hn, hk, ht]

/-! The operands. -/

include ha in
theorem slice_regM_agrees : slice KMAX s'.regM 0 s'.k = slice KMAX s.regM 0 s.k := by
  obtain ⟨_, hk, _⟩ := agrees_dims ha
  obtain ⟨_, _, _, _, _, _, hM, _⟩ := ha
  rw [hk]
  exact slice_congr fun j hj => by rw [hM _ (by omega)]

include ha in
theorem slice_regE_agrees : slice NMAX s'.regE 0 s'.n = slice NMAX s.regE 0 s.n := by
  obtain ⟨hn, _⟩ := agrees_dims ha
  obtain ⟨_, _, _, _, _, _, _, hE, _⟩ := ha
  rw [hn]
  exact slice_congr fun j hj => by rw [hE _ (by omega)]

include ha in
theorem slice_regC_agrees (width a b : Nat) (hb : b ≤ s.n) : slice width s'.regC a b = slice width s.regC a b := by
  obtain ⟨_, _, _, _, _, _, _, _, hC, _⟩ := ha
  exact slice_congr fun j hj => by rw [hC _ (by omega)]

include hl ha

theorem timesP_agrees (m : BitVec KMAX) :
    timesP s'.matP m s'.k (s'.n - s'.k) = timesP s.matP m s.k (s.n - s.k) := by
  obtain ⟨hn, hk, _⟩ := agrees_dims ha
  obtain ⟨_, _, _, hr, _⟩ := s.legal_iff.1 hl
  obtain ⟨_, _, _, _, _, _, _, _, _, hP⟩ := ha
  rw [hn, hk]
  exact timesP_congr m hr fun i j hi hj => (hP i j hi hj).symm

theorem timesG_agrees (m : BitVec KMAX) :
    timesG s'.matP m s'.k (s'.n - s'.k) = timesG s.matP m s.k (s.n - s.k) := by
  obtain ⟨_, hk, _⟩ := agrees_dims ha
  rw [timesG, timesG, timesP_agrees hl ha, hk]

theorem received_agrees : s'.received = s.received := by
  obtain ⟨_, hk, _⟩ := agrees_dims ha
  obtain ⟨_, hkn, _⟩ := s.legal_iff.1 hl
  rw [State.received, State.received, hk, slice_regC_agrees ha _ _ _ (by omega)]

/-! SYND and DECODE (42_decapsulator.md R150, R154). -/

theorem mismatch_agrees (cand : BitVec KMAX) : s'.mismatch cand = s.mismatch cand := by
  obtain ⟨hn, hk, _⟩ := agrees_dims ha
  have hparity : s'.parityReceived = s.parityReceived := by
    rw [State.parityReceived, State.parityReceived, hn, hk, slice_regC_agrees ha _ _ _ (Nat.le_refl _)]
  rw [State.mismatch, State.mismatch, timesP_agrees hl ha, hparity]

theorem syndrome_agrees : s'.syndrome = s.syndrome := by
  rw [State.syndrome, State.syndrome, received_agrees hl ha, mismatch_agrees hl ha]

theorem candidate_agrees (i : Nat) : s'.candidate i = s.candidate i := by
  rw [State.candidate, State.candidate, received_agrees hl ha]

theorem probe_agrees (i : Nat) (a : Search) : s'.probe i a = s.probe i a := by
  have herr : s'.probeErr i = s.probeErr i := by
    rw [State.probeErr, State.probeErr, candidate_agrees hl ha, mismatch_agrees hl ha]
  simp only [State.probe, herr, candidate_agrees hl ha]

theorem accepts_agrees : s'.accepts = s.accepts := by
  obtain ⟨_, _, ht⟩ := agrees_dims ha
  rw [State.accepts, State.accepts, syndrome_agrees hl ha, ht]

theorem decision_agrees : s'.decision = s.decision := by
  obtain ⟨_, hk, _⟩ := agrees_dims ha
  have hnoProbe : s'.noProbe = s.noProbe := by
    rw [State.noProbe, State.noProbe, received_agrees hl ha, syndrome_agrees hl ha]
  rw [State.decision, State.decision, accepts_agrees hl ha, hnoProbe, hk, search_congr (probe_agrees hl ha)]

/-! The effects, register by register. -/

theorem effect_regM_agrees {i : Instr} (hi : i = .genm ∨ i = .encap) :
    (effect i s).regM = (effect i s').regM ∧ ∀ j, s.k ≤ j → (effect i s).regM.getLsbD j = false := by
  have hdraw : s.drawMessage s.fresh = s'.drawMessage s'.fresh := by
    rw [agrees_fresh ha, drawMessage_agrees ha]
  obtain ⟨_, habove⟩ := State.drawMessage_spec hl s.fresh
  rcases hi with rfl | rfl <;> exact ⟨hdraw, habove⟩

theorem drawnError_agrees (offset : Nat) : s.drawError (s.fresh + offset) = s'.drawError (s'.fresh + offset) ∧
    ∀ j, s.n ≤ j → (s.drawError (s.fresh + offset)).getLsbD j = false := by
  obtain ⟨_, _, habove⟩ := State.drawError_spec hl (s.fresh + offset)
  rw [agrees_fresh ha, drawError_agrees ha]
  exact ⟨rfl, habove⟩

theorem effect_regE_agrees {i : Instr} (hi : i = .gene ∨ i = .encap) :
    (effect i s).regE = (effect i s').regE ∧ ∀ j, s.n ≤ j → (effect i s).regE.getLsbD j = false := by
  rcases hi with rfl | rfl
  · exact drawnError_agrees hl ha 0
  · exact drawnError_agrees hl ha 1

omit ha in
theorem codeword_zero_above {m : BitVec KMAX} (hm : ∀ j, s.k ≤ j → m.getLsbD j = false) {j : Nat} (hj : s.n ≤ j) :
    (timesG s.matP m s.k (s.n - s.k)).getLsbD j = false := by
  obtain ⟨_, hkn, _, hr, _⟩ := s.legal_iff.1 hl
  exact timesG_getLsbD_above _ _ _ _ _ hr hm (by omega)

theorem effect_regC_agrees {i : Instr} (hi : i = .mulg ∨ i = .xore ∨ i = .encap) :
    (effect i s).regC = (effect i s').regC ∧ ∀ j, s.n ≤ j → (effect i s).regC.getLsbD j = false := by
  obtain ⟨hn, _⟩ := agrees_dims ha
  rcases hi with rfl | rfl | rfl
  case inl =>
    have hzero (j : Nat) (hj : s.k ≤ j) : (slice KMAX s.regM 0 s.k).getLsbD j = false := by
      simp [slice_message_getLsbD hl, hj]
    refine ⟨?_, fun j hj => codeword_zero_above hl hzero hj⟩
    simp only [effect, slice_regM_agrees ha, timesG_agrees hl ha]
  case inr.inl =>
    have hC : slice NMAX s'.regC 0 s'.n = slice NMAX s.regC 0 s.n := by
      rw [hn, slice_regC_agrees ha _ _ _ (Nat.le_refl _)]
    refine ⟨?_, fun j hj => ?_⟩
    · simp only [effect, slice_regE_agrees ha, hC]
    · have : ¬ j < s.n := by omega
      simp [effect, slice_word_getLsbD hl, this]
  case inr.inr =>
    obtain ⟨_, hzero⟩ := State.drawMessage_spec hl s.fresh
    obtain ⟨_, herror⟩ := drawnError_agrees hl ha 1
    refine ⟨?_, fun j hj => ?_⟩
    · simp only [effect, State.withCiphertext_regC, agrees_fresh ha, drawMessage_agrees ha, drawError_agrees ha,
        timesG_agrees hl ha]
    · simp only [effect, State.withCiphertext_regC, BitVec.getLsbD_xor, codeword_zero_above hl hzero hj, herror j hj,
        Bool.xor_false]

theorem effect_syndrome_agrees {i : Instr} (hi : i = .synd ∨ i = .decode) :
    (effect i s).regS = (effect i s').regS ∧ (effect i s).syndWt = (effect i s').syndWt ∧
      ∀ j, s.n - s.k ≤ j → (effect i s).regS.getLsbD j = false := by
  have hsyndrome := (syndrome_agrees hl ha).symm
  have hweight := congrArg (fun x => BitVec.ofNat 16 (popcount x)) hsyndrome
  have habove (j : Nat) (hj : s.n - s.k ≤ j) : s.syndrome.getLsbD j = false := by
    have : ¬ j < s.n - s.k := by omega
    rw [State.syndrome_getLsbD hl]; simp [this]
  rcases hi with rfl | rfl <;> exact ⟨hsyndrome, hweight, habove⟩

/-- DECODE decides on the state it found: C, the key and the parameter set (42_decapsulator.md R162). -/
theorem effect_decision_agrees : (effect .decode s).regD = (effect .decode s').regD ∧
    (effect .decode s).decStat = (effect .decode s').decStat ∧
    (effect .decode s).searchCnt = (effect .decode s').searchCnt ∧
      ∀ j, s.k ≤ j → (effect .decode s).regD.getLsbD j = false := by
  have hdecision := (decision_agrees hl ha).symm
  have hstat : decStatWord (!s.accepts) s.decision = decStatWord (!s'.accepts) s'.decision := by
    rw [hdecision, accepts_agrees hl ha]
  exact ⟨congrArg Search.best hdecision, hstat, congrArg (fun a : Search => BitVec.ofNat 8 a.cnt) hdecision,
    fun j hj => decision_best_zero_above hl hj⟩

end

/-- Settles O41 (10_state.md R39): both states complete with their effects, which agree register by register. -/
theorem onlyValidBitsMatter : Obligations.OnlyValidBitsMatter := by
  intro i s s' u u' hi ha hready hready' hu hu'
  obtain rfl := exec_unique hready hu
  obtain rfl := exec_unique hready' hu'
  obtain ⟨hl, _⟩ := hready.resolve_left hi
  refine ⟨?_, effect_regM_agrees hl ha, effect_regE_agrees hl ha, effect_regC_agrees hl ha,
    effect_syndrome_agrees hl ha, ?_⟩
  · rintro rfl; exact effect_key_agrees ha
  · rintro rfl; exact effect_decision_agrees hl ha

end Sys2Proof.Proofs.StateRules

namespace Sys2Proof.Proofs.Memory

open Sys2Proof.Machine Sys2Proof.Config

/-! ### Transactions of the wrong size or alignment (20_memory.md R62, R63) -/

theorem accepted_eq_false_iff (x : Txn) : x.accepted = false ↔ x.size ≠ 2 ∨ x.addr.toNat % 4 ≠ 0 := by
  simp only [Txn.accepted, Bool.and_eq_false_iff, beq_eq_false_iff_ne]

/-- Settles O42 (20_memory.md R62, R63, 60_exceptions.md R189). -/
theorem busErrorHasNoEffect : Obligations.BusErrorHasNoEffect := by
  intro s x rest hbus hbad
  rw [step_bus hbus, transact_refused _ x ((accepted_eq_false_iff x).2 hbad)]

/-! ### Waiting for the random source (20_memory.md R74) -/

/-- Settles O9 (20_memory.md R74, 70_reset_and_hazards.md R221): the completion of a drawing command is
`completeDrawing`, which leaves the state alone once the checks pass and no word is offered. -/
theorem drawingCommandWaitsForWords : Obligations.DrawingCommandWaitsForWords := by
  intro s i hdraws hlegal hkey hdry
  have hnop : i ≠ .nop := by rintro rfl; cases hdraws
  rw [exec_eq, if_neg hnop, if_pos hdraws]
  exact completeDrawing_waits (State.failedCheck_of_passed hlegal hkey) hdry

/-! ### What a read leaves unchanged (20_memory.md R67) -/

/-- A read, accepted or not, moves only the response and the numbering of free values. -/
theorem transact_read_frame (s : State) {x : Txn} (hread : x.we = false) :
    ∃ resp fresh, transact s x = { s with resp := resp, fresh := fresh } := by
  rcases transact_cases s x with ⟨_, h⟩ | ⟨_, hwrite, _⟩ | ⟨_, _, h⟩
  · exact ⟨_, s.fresh, h⟩
  · rw [hread] at hwrite; cases hwrite
  · rcases readReg_cases s (regAt x.addr.toNat) with ⟨_, _, _, hfree⟩ | ⟨_, hview⟩
    · exact ⟨_, _, h.trans hfree⟩
    · exact ⟨_, s.fresh, h.trans hview⟩

/-- Settles O56 (20_memory.md R67). -/
theorem readsChangeNoRegister : Obligations.ReadsChangeNoRegister := by
  intro s t x rest hbus hread hstep
  obtain ⟨resp, fresh, hframe⟩ := transact_read_frame { s with inputs := rest } hread
  rw [step_bus hbus, hframe] at hstep
  cases hstep
  rfl

/-! ### The words of the aperture (10_state.md R20, R38, R41) -/

/-- The `words` words of the aperture from offset `lo` up hold the positions of f, 32 to a word, lowest first. -/
def windowHolds (s : State) (lo words : Nat) (f : Nat → Bool) : Prop :=
  ∀ w b, w < words → b < 32 → (readView s (regAt (lo + 4 * w))).getLsbD b = f (32 * w + b)

theorem readWord_getLsbD_of_lt {len : Nat} (v : BitVec len) (w : Nat) {b : Nat} (hb : b < 32) :
    (readWord v w).getLsbD b = v.getLsbD (32 * w + b) := by
  rw [readWord_getLsbD, decide_eq_true hb, Bool.true_and]

theorem windowHolds_m (s : State) : windowHolds s 0x100 4 s.regM.getLsbD := by
  intro w b hw hb; rw [regAt_m w hw]; exact readWord_getLsbD_of_lt _ w hb

theorem windowHolds_e (s : State) : windowHolds s 0x140 6 s.regE.getLsbD := by
  intro w b hw hb; rw [regAt_e w hw]; exact readWord_getLsbD_of_lt _ w hb

theorem windowHolds_c (s : State) : windowHolds s 0x180 6 s.regC.getLsbD := by
  intro w b hw hb; rw [regAt_c w hw]; exact readWord_getLsbD_of_lt _ w hb

theorem windowHolds_s (s : State) : windowHolds s 0x1C0 2 s.regS.getLsbD := by
  intro w b hw hb; rw [regAt_s w hw]; exact readWord_getLsbD_of_lt _ w hb

theorem windowHolds_d (s : State) : windowHolds s 0x200 4 s.regD.getLsbD := by
  intro w b hw hb; rw [regAt_d w hw]; exact readWord_getLsbD_of_lt _ w hb

/-- Row i of the P region is a window of its own, of two words (10_state.md R41). -/
theorem windowHolds_p (s : State) (i : Nat) (hi : i < 128) : windowHolds s (0x400 + 8 * i) 2 (entry s.matP i) := by
  intro w b hw hb; rw [regAt_p i w hi hw]; exact readWord_getLsbD_of_lt _ w hb

theorem readView_reserved (s : State) {off : Nat} (h : reservedOffset off) : readView s (regAt off) = 0 := by
  rw [regAt_reserved off h (StateRules.reservedOffset_lt h)]; rfl

/-! ### The bytes of the aperture (20_memory.md R69) -/

theorem byteOfWord_getLsbD (v : Word) (q : Nat) {b : Nat} (hb : b < 8) :
    (byteOfWord v q).getLsbD b = v.getLsbD (8 * q + b) := by
  rw [byteOfWord, BitVec.getLsbD_extractLsb', decide_eq_true hb, Bool.true_and]

/-- Byte q of a window lies in its word q / 4: the words are little-endian. -/
theorem apertureByte_getLsbD {s : State} {lo words : Nat} {f : Nat → Bool} (h : windowHolds s lo words f)
    (hlo : lo % 4 = 0) {q b : Nat} (hq : q < 4 * words) (hb : b < 8) :
    (apertureByte s (lo + q)).getLsbD b = f (8 * q + b) := by
  have hword : (lo + q) / 4 * 4 = lo + 4 * (q / 4) := by omega
  have hbyte : (lo + q) % 4 = q % 4 := by omega
  have hpos : 32 * (q / 4) + (8 * (q % 4) + b) = 8 * q + b := by omega
  rw [apertureByte, hword, hbyte, byteOfWord_getLsbD _ _ hb, h (q / 4) _ (by omega) (by omega), hpos]

/-- Settles O51 (20_memory.md R69): every window, and every row of P, holds its positions word by word. -/
theorem windowBytesAreLittleEndian : Obligations.WindowBytesAreLittleEndian := by
  intro s q b hb
  refine ⟨fun hq => apertureByte_getLsbD (windowHolds_m s) rfl hq hb,
    fun hq => apertureByte_getLsbD (windowHolds_e s) rfl hq hb,
    fun hq => apertureByte_getLsbD (windowHolds_c s) rfl hq hb,
    fun hq => apertureByte_getLsbD (windowHolds_s s) rfl hq hb,
    fun hq => apertureByte_getLsbD (windowHolds_d s) rfl hq hb, fun hq => ?_⟩
  have hrow : 0x400 + q = 0x400 + 8 * (q / 8) + q % 8 := by omega
  rw [hrow]
  exact apertureByte_getLsbD (windowHolds_p s (q / 8) (by omega)) (by omega) (by omega) hb

/-! ### What an accepted read answers (20_memory.md R64, 10_state.md R46) -/

/-- The inputs to come are outside the block: no register shows them. -/
theorem readView_inputs (s : State) (rest : List Input) (r : Reg) :
    readView { s with inputs := rest } r = readView s r := by
  cases r <;> rfl

section

variable {s : State} {off : Nat} {rest : List Input} (hrd : s.inputs = rd off :: rest)
  (h4 : off % 4 = 0) (hlt : off < 0x1000)
include hrd h4 hlt

/-- An unstable register read while busy: a free value, kept to the bits that are not reserved. -/
theorem step_rd_unstable {bits : Word} (hbusy : s.status.busy = true) (hbits : unstableBits (regAt off) = some bits) :
    step s = .next { s with
      inputs := rest, resp := some (.okRead (busyWord s.fresh &&& bits)), fresh := s.fresh + 1 } := by
  rw [step_rd hrd h4 hlt]
  simp only [readReg, hbusy, hbits]

/-- Any other read shows the register at the offset. -/
theorem step_rd_exact (hexact : s.status.busy = false ∨ ¬ unstableOffset off) :
    step s = .next { s with inputs := rest, resp := some (.okRead (readView s (regAt off))) } := by
  rw [step_rd hrd h4 hlt]
  rcases readReg_cases { s with inputs := rest } (regAt off) with ⟨hbusy, bits, hbits, _⟩ | ⟨_, hview⟩
  · have hunstable : unstableOffset off := (unstableBits_isSome_iff off h4 hlt).1 (by rw [hbits]; rfl)
    rcases hexact with hidle | hstable
    · rw [hidle] at hbusy; cases hbusy
    · exact absurd hunstable hstable
  · rw [hview, readView_inputs]

end

/-- A field that the mask clears reads 0. -/
theorem masked_field_eq_zero (x mask : Word) {lo width : Nat} (h : mask.extractLsb' lo width = 0) :
    (x &&& mask).extractLsb' lo width = 0 := by
  rw [BitVec.extractLsb'_and, h]; exact BitVec.and_zero

/-- The reserved bits of an unstable register are clear in its mask (10_state.md R25, R34 to R36). -/
theorem unstableBits_reserved {off : Nat} {bits : Word} (h : unstableBits (regAt off) = some bits) :
    (off = 0x020 ∨ off = 0x024 ∨ off = 0x028 → bits.extractLsb' 16 16 = 0) ∧
    (off = 0x02C → bits.extractLsb' 2 6 = 0) ∧ (off = 0x030 → bits.extractLsb' 8 24 = 0) := by
  refine ⟨?_, ?_, ?_⟩
  · rintro (rfl | rfl | rfl) <;> cases h <;> decide
  · rintro rfl; cases h; decide
  · rintro rfl; cases h; decide

theorem bitAt_zero (x : Bool) : bitAt x 0 = if x then 1 else 0 := by
  cases x <;> rfl

/-- Settles O46 (20_memory.md R64, R66, 10_state.md R26, R38, R41, R46): while busy an unstable register answers a
free value under its mask; every other read answers the view of the register at its offset. -/
theorem readAnswersTheRegisterMap : Obligations.ReadAnswersTheRegisterMap := by
  intro s off rest hrd h4 hlt
  refine ⟨fun hbusy hunstable => ?_, fun hexact => ?_⟩
  · obtain ⟨bits, hbits⟩ := Option.isSome_iff_exists.1 ((unstableBits_isSome_iff off h4 hlt).2 hunstable)
    obtain ⟨hhalf, hstat, hcnt⟩ := unstableBits_reserved hbits
    exact ⟨_, step_rd_unstable hrd h4 hlt hbusy hbits, fun h => masked_field_eq_zero _ _ (hhalf h),
      fun h => masked_field_eq_zero _ _ (hstat h), fun h => masked_field_eq_zero _ _ (hcnt h)⟩
  · refine ⟨_, step_rd_exact hrd h4 hlt hexact, ?_, ?_, ?_, ?_, ?_, ?_, ?_, ?_, ?_, ?_, ?_, ?_, ?_,
      ?_, ?_, ?_, ?_, ?_, ?_, readView_reserved s⟩
    · rintro rfl; rfl
    · rintro rfl; rfl
    · rintro rfl; exact bitAt_zero s.ie
    · rintro rfl; rfl
    · rintro rfl; exact BitVec.toNat_setWidth_of_le (by decide)
    · rintro rfl; exact BitVec.toNat_setWidth_of_le (by decide)
    · rintro rfl; exact BitVec.toNat_setWidth_of_le (by decide)
    · rintro rfl; rfl
    · rintro rfl; exact BitVec.toNat_setWidth_of_le (by decide)
    · rintro rfl; exact BitVec.toNat_setWidth_of_le (by decide)
    · rintro rfl; exact BitVec.toNat_setWidth_of_le (by decide)
    · rintro rfl; rfl
    · rintro rfl; exact BitVec.toNat_setWidth_of_le (by decide)
    · rintro w b hw hb rfl; exact windowHolds_m s w b hw hb
    · rintro w b hw hb rfl; exact windowHolds_e s w b hw hb
    · rintro w b hw hb rfl; exact windowHolds_c s w b hw hb
    · rintro w b hw hb rfl; exact windowHolds_s s w b hw hb
    · rintro w b hw hb rfl; exact windowHolds_d s w b hw hb
    · rintro i w b hi hw hb rfl; exact windowHolds_p s i hi w b hw hb

end Sys2Proof.Proofs.Memory

namespace Sys2Proof.Proofs.Encoding

open Sys2Proof.Machine Sys2Proof.Config

/-! ### The fields of a command word (30_encoding.md R90, R92) -/

/-- RSV and OPC are the whole word. -/
theorem rsvOf_append_opcOf (v : Word) : rsvOf v ++ opcOf v = v :=
  BitVec.extractLsb'_append_extractLsb' (w := 24) (len := 8)

@[simp] theorem rsvOf_encode (i : Instr) : rsvOf (encode i) = 0 := BitVec.extractLsb'_append_eq_left

@[simp] theorem opcOf_encode (i : Instr) : opcOf (encode i) = opcode i := BitVec.extractLsb'_append_eq_right

theorem eq_encode_iff (v : Word) (i : Instr) : v = encode i ↔ rsvOf v = 0 ∧ opcOf v = opcode i := by
  constructor
  · rintro rfl; exact ⟨rsvOf_encode i, opcOf_encode i⟩
  · rintro ⟨hrsv, hopc⟩
    rw [← rsvOf_append_opcOf v, hrsv, hopc, encode]

/-- The laws of `CommandWord`, gathered over the commands. -/
theorem commandWord (i : Instr) : Laws.CommandWord.Statement i := by
  cases i with
  | nop => exact Laws.CommandWord.nop
  | genp => exact Laws.CommandWord.genp
  | genm => exact Laws.CommandWord.genm
  | gene => exact Laws.CommandWord.gene
  | mulg => exact Laws.CommandWord.mulg
  | xore => exact Laws.CommandWord.xore
  | encap => exact Laws.CommandWord.encap
  | synd => exact Laws.CommandWord.synd
  | decode => exact Laws.CommandWord.decode

theorem opcode_toNat_le (i : Instr) : (opcode i).toNat ≤ 8 := by
  obtain ⟨hopc, hle, _⟩ := commandWord i
  rwa [hopc] at hle

theorem validWord_encode (i : Instr) : validWord (encode i) = true := by
  obtain ⟨_, _, hvalid, _⟩ := commandWord i
  exact hvalid

/-! ### The decoder on words (30_encoding.md R92, R94, R95) -/

/-- The opcode map is the column OPC read backwards. -/
theorem instrOfOpc_eq_some_iff (o : BitVec 8) (i : Instr) : instrOfOpc o = some i ↔ opcode i = o := by
  constructor
  · intro h
    unfold instrOfOpc at h
    split at h
    case h_10 => cases h
    all_goals
      next hval =>
        cases h
        exact BitVec.eq_of_toNat_eq hval.symm
  · rintro rfl; cases i <;> rfl

/-- Opcodes 0x00 to 0x08 are all in use. -/
theorem exists_opcode_eq {o : BitVec 8} (h : o.toNat ≤ 8) : ∃ i, opcode i = o := by
  obtain ⟨i, hi⟩ : ∃ i, (opcode i).toNat = o.toNat := by
    interval_cases o.toNat
    exacts [⟨.nop, rfl⟩, ⟨.genp, rfl⟩, ⟨.genm, rfl⟩, ⟨.gene, rfl⟩, ⟨.mulg, rfl⟩, ⟨.xore, rfl⟩, ⟨.encap, rfl⟩,
      ⟨.synd, rfl⟩, ⟨.decode, rfl⟩]
  exact ⟨i, BitVec.eq_of_toNat_eq hi⟩

theorem decodeWord_eq_instr_iff (v : Word) (i : Instr) :
    decodeWord v = .instr i ↔ rsvOf v = 0 ∧ opcode i = opcOf v := by
  rw [← instrOfOpc_eq_some_iff]
  unfold decodeWord
  by_cases hrsv : rsvOf v = 0
  · rw [if_pos hrsv]
    cases instrOfOpc (opcOf v) <;> simp [hrsv]
  · rw [if_neg hrsv]
    exact ⟨nofun, fun h => absurd h.1 hrsv⟩

theorem decodeWord_eq_instr_iff_eq_encode (v : Word) (i : Instr) : decodeWord v = .instr i ↔ v = encode i := by
  rw [decodeWord_eq_instr_iff, eq_encode_iff, eq_comm (a := opcode i)]

@[simp] theorem decodeWord_encode (i : Instr) : decodeWord (encode i) = .instr i :=
  (decodeWord_eq_instr_iff_eq_encode _ i).2 rfl

theorem exists_decodeWord_eq_instr_iff (v : Word) :
    (∃ i, decodeWord v = .instr i) ↔ rsvOf v = 0 ∧ (opcOf v).toNat ≤ 8 := by
  constructor
  · rintro ⟨i, hi⟩
    obtain ⟨hrsv, hopc⟩ := (decodeWord_eq_instr_iff v i).1 hi
    exact ⟨hrsv, hopc ▸ opcode_toNat_le i⟩
  · rintro ⟨hrsv, hopc⟩
    obtain ⟨i, hi⟩ := exists_opcode_eq hopc
    exact ⟨i, (decodeWord_eq_instr_iff v i).2 ⟨hrsv, hi⟩⟩

/-- The decoder is total: what is no command is illegal. -/
theorem exists_decodeWord_eq_illegal {v : Word} (h : ¬ (rsvOf v = 0 ∧ (opcOf v).toNat ≤ 8)) :
    ∃ why, decodeWord v = .illegal why := by
  cases hd : decodeWord v with
  | illegal why => exact ⟨why, rfl⟩
  | instr i => exact absurd ((exists_decodeWord_eq_instr_iff v).1 ⟨i, hd⟩) h

/-- Settles O1 (30_encoding.md R92): the decoder inverts `encode`, whose words are those of the table. -/
theorem nineWordsAndNoOtherDecode : Obligations.NineWordsAndNoOtherDecode := by
  intro v i
  rw [decodeWord_eq_instr_iff_eq_encode]
  cases i <;> exact Iff.rfl

/-- Settles O3 (30_encoding.md R94, 43_control.md R171): an illegal word in flight enters the error. -/
theorem invalidWordFailsAsIllegalCommand : Obligations.InvalidWordFailsAsIllegalCommand := by
  refine fun v => ⟨fun hvalid => ?_, fun hinvalid => ?_⟩
  · obtain ⟨i, hi⟩ := (exists_decodeWord_eq_instr_iff v).2 hvalid
    obtain ⟨_, hopc⟩ := (decodeWord_eq_instr_iff v i).1 hi
    exact ⟨i, hi, hopc⟩
  · obtain ⟨why, hwhy⟩ := exists_decodeWord_eq_illegal hinvalid
    refine ⟨⟨why, hwhy⟩, ?_⟩
    rintro s rest hnext hbusy rfl
    rw [step_engine hnext]
    exact engineTurn_illegal (s := { s with inputs := rest }) hbusy hwhy

/-! ### The decoder on bytes and on table rows (20_memory.md R69, 30_encoding.md R91) -/

theorem wordOfBytes_byteOfWord (v : Word) :
    wordOfBytes (byteOfWord v 0) (byteOfWord v 1) (byteOfWord v 2) (byteOfWord v 3) = v := by
  have hhigh : byteOfWord v 3 ++ byteOfWord v 2 = v.extractLsb' 16 16 :=
    BitVec.extractLsb'_append_extractLsb'_eq_extractLsb' rfl
  have hupper : v.extractLsb' 16 16 ++ byteOfWord v 1 = v.extractLsb' 8 24 :=
    BitVec.extractLsb'_append_extractLsb'_eq_extractLsb' rfl
  rw [wordOfBytes, hhigh, hupper]
  exact rsvOf_append_opcOf v

theorem decodeBytes_byteOfWord (v : Word) :
    decodeBytes [byteOfWord v 0, byteOfWord v 1, byteOfWord v 2, byteOfWord v 3] = some (decodeWord v) := by
  rw [decodeBytes, wordOfBytes_byteOfWord]

/-- Settles O2 (30_encoding.md R90, R91, 20_memory.md R69). -/
theorem encodedCommandDecodesBack : Obligations.EncodedCommandDecodesBack := by
  intro i _
  refine ⟨decodeWord_encode i, validWord_encode i, ?_⟩
  rw [decodeBytes_byteOfWord, decodeWord_encode]

theorem decodeTableWord_of_instr {w : Nat} {i : Instr} (h : decodeWord (BitVec.ofNat 32 (w % 2 ^ 32)) = .instr i) :
    decodeTableWord 32 w = some i := by
  simp only [decodeTableWord, decodeBytes_byteOfWord, h]

theorem decodeTableWord_of_illegal {w : Nat} {why : IllegalWord}
    (h : decodeWord (BitVec.ofNat 32 (w % 2 ^ 32)) = .illegal why) : decodeTableWord 32 w = none := by
  simp only [decodeTableWord, decodeBytes_byteOfWord, h]

theorem decodeTableWord_encode (i : Instr) : decodeTableWord 32 (encode i).toNat = some i := by
  apply decodeTableWord_of_instr
  rw [Nat.mod_eq_of_lt (encode i).isLt, BitVec.ofNat_toNat, BitVec.setWidth_eq, decodeWord_encode]

/-- Settles O4 (30_encoding.md R92, R95): the numbers 0 to 8 are the encodings of the nine commands. -/
theorem tableWordsReadBack : Obligations.TableWordsReadBack :=
  ⟨decodeTableWord_encode .nop, decodeTableWord_encode .genp, decodeTableWord_encode .genm,
    decodeTableWord_encode .gene, decodeTableWord_encode .mulg, decodeTableWord_encode .xore,
    decodeTableWord_encode .encap, decodeTableWord_encode .synd, decodeTableWord_encode .decode,
    decodeTableWord_encode,
    decodeTableWord_of_illegal (why := .reservedOpcode) (by decide),
    decodeTableWord_of_illegal (why := .reservedBits) (by decide),
    decodeTableWord_of_illegal (why := .reservedOpcode) (by decide)⟩

/-! ### What each command leaves unchanged (30_encoding.md R93, column "writes on success") -/

section

variable {i : Instr} (s : State)

theorem effect_key_of_ne (hi : i ≠ .genp) :
    (effect i s).matP = s.matP ∧ (effect i s).keyN = s.keyN ∧ (effect i s).keyK = s.keyK := by
  cases i with
  | genp => exact absurd rfl hi
  | nop | genm | gene | mulg | xore | encap | synd | decode => exact ⟨rfl, rfl, rfl⟩

theorem effect_regM_of_ne (hgenm : i ≠ .genm) (hencap : i ≠ .encap) : (effect i s).regM = s.regM := by
  cases i with
  | genm => exact absurd rfl hgenm
  | encap => exact absurd rfl hencap
  | nop | genp | gene | mulg | xore | synd | decode => rfl

theorem effect_regE_of_ne (hgene : i ≠ .gene) (hencap : i ≠ .encap) : (effect i s).regE = s.regE := by
  cases i with
  | gene => exact absurd rfl hgene
  | encap => exact absurd rfl hencap
  | nop | genp | genm | mulg | xore | synd | decode => rfl

theorem effect_regC_of_ne (hmulg : i ≠ .mulg) (hxore : i ≠ .xore) (hencap : i ≠ .encap) :
    (effect i s).regC = s.regC := by
  cases i with
  | mulg => exact absurd rfl hmulg
  | xore => exact absurd rfl hxore
  | encap => exact absurd rfl hencap
  | nop | genp | genm | gene | synd | decode => rfl

theorem effect_syndrome_of_ne (hsynd : i ≠ .synd) (hdecode : i ≠ .decode) :
    (effect i s).regS = s.regS ∧ (effect i s).syndWt = s.syndWt := by
  cases i with
  | synd => exact absurd rfl hsynd
  | decode => exact absurd rfl hdecode
  | nop | genp | genm | gene | mulg | xore | encap => exact ⟨rfl, rfl⟩

theorem effect_decision_of_ne (hdecode : i ≠ .decode) :
    (effect i s).regD = s.regD ∧ (effect i s).decStat = s.decStat ∧ (effect i s).searchCnt = s.searchCnt := by
  cases i with
  | decode => exact absurd rfl hdecode
  | nop | genp | genm | gene | mulg | xore | encap | synd => exact ⟨rfl, rfl, rfl⟩

theorem effect_fresh_of_not_draws (hi : draws i = false) : (effect i s).fresh = s.fresh := by
  cases i with
  | genp | genm | gene | encap => cases hi
  | nop | mulg | xore | synd | decode => rfl

end

/-- STATUS apart, a command leaves the state as it is or leaves its effect; OVR stays (10_state.md R30). -/
theorem exec_eq_setStatus {i : Instr} {s t : State} (h : exec i s = .next t) :
    ∃ st : Status, st.ovr = s.status.ovr ∧ (t = { s with status := st } ∨ t = { effect i s with status := st }) := by
  rcases exec_cases h with ⟨_, e, _, rfl⟩ | ⟨_, rfl⟩ | ⟨_, _, _, rfl⟩
  · exact ⟨_, Status.failed_ovr _ _ _, .inl rfl⟩
  · refine ⟨_, ?_, .inr rfl⟩
    rw [Status.succeeded_ovr, effect_status]
  · exact ⟨_, rfl, .inl rfl⟩

/-- Settles O13 (30_encoding.md R93, 10_state.md R30): a state with STATUS replaced keeps every other register, and the
effect of a command keeps those outside its row. -/
theorem commandsWriteOnlyTheirRegisters : Obligations.CommandsWriteOnlyTheirRegisters := by
  intro i s t h
  obtain ⟨st, hovr, rfl | rfl⟩ := exec_eq_setStatus h
  · exact ⟨⟨rfl, rfl, rfl, rfl, rfl, hovr, rfl, rfl, rfl⟩, fun _ => ⟨rfl, rfl, rfl⟩, fun _ _ => rfl, fun _ _ => rfl,
      fun _ _ _ => rfl, fun _ _ => ⟨rfl, rfl⟩, fun _ => ⟨rfl, rfl, rfl⟩, fun _ => rfl⟩
  · obtain ⟨hie, _, hn, hk, ht, hcmd, hinputs, hrnd, hresp⟩ := effect_frame i s
    exact ⟨⟨hie, hn, hk, ht, hcmd, hovr, hinputs, hrnd, hresp⟩, effect_key_of_ne s, effect_regM_of_ne s,
      effect_regE_of_ne s, effect_regC_of_ne s, effect_syndrome_of_ne s, effect_decision_of_ne s,
      effect_fresh_of_not_draws s⟩

/-! ### Idle writes (30_encoding.md R96, 20_memory.md R65) -/

/-- A write guarded by `whenIdle`, while idle: what it stores, and the response OKAY. -/
theorem step_wr_of_idle {s s' : State} {off : Nat} {r : Reg} {v : Word} {rest : List Input}
    (hwr : s.inputs = wr off v :: rest) (hidle : s.status.busy = false) (h4 : off % 4 = 0) (hlt : off < 0x1000)
    (hreg : regAt off = r)
    (heffect : writeEffect { s with inputs := rest } r v = ({ s with inputs := rest } : State).whenIdle s') :
    step s = .next { s' with resp := some .okWrite } := by
  subst hreg
  exact StateRules.step_wr_of_effect hwr h4 hlt
    (heffect.trans (StateRules.whenIdle_of_idle (s := { s with inputs := rest }) hidle s'))

/-- Bits 15:0 of the written word (10_state.md R24, R25). -/
theorem setWidth_half (v : Word) : v.setWidth 16 = v.extractLsb' 0 16 :=
  BitVec.setWidth_eq_extractLsb' (by decide)

/-- Word w of row a replaced, entry by entry (10_state.md R41). -/
theorem entry_writeRow_writeWord (p : Matrix) {a : Nat} (ha : a < 128) (w : Nat) (v : Word) (i : Nat) {j : Nat}
    (hj : j < 64) : entry (writeRow p a (writeWord (row p a) w v)) i j =
      if i = a ∧ j / 32 = w then v.getLsbD (j % 32) else entry p i j := by
  rw [entry, row_writeRow p a i _ ha]
  by_cases hi : i = a
  · subst hi
    rw [if_pos rfl, writeWord_getLsbD _ _ _ _ hj]
    simp only [true_and, entry]
  · rw [if_neg (Ne.symm hi), if_neg fun h => hi h.1, entry]

/-- Settles O45 (30_encoding.md R96, 10_state.md R24, R25, R38, R41, 20_memory.md R65). -/
theorem idleWriteStoresTheWord : Obligations.IdleWriteStoresTheWord := by
  intro s off v rest hwr hidle
  rw [← setWidth_half]
  refine ⟨?paramN, ?paramK, ?paramT, ?keyN, ?keyK, ?m, ?e, ?c, ?p⟩
  case paramN | paramK | paramT | keyN | keyK =>
    rintro rfl
    exact step_wr_of_idle hwr hidle rfl (by decide) rfl rfl
  case m =>
    rintro w hw rfl
    exact ⟨_, step_wr_of_idle hwr hidle (by omega) (by omega) (regAt_m w hw) rfl, writeWord_getLsbD _ w v⟩
  case e =>
    rintro w hw rfl
    exact ⟨_, step_wr_of_idle hwr hidle (by omega) (by omega) (regAt_e w hw) rfl, writeWord_getLsbD _ w v⟩
  case c =>
    rintro w hw rfl
    exact ⟨_, step_wr_of_idle hwr hidle (by omega) (by omega) (regAt_c w hw) rfl, writeWord_getLsbD _ w v⟩
  case p =>
    rintro a w ha hw rfl
    exact ⟨_, step_wr_of_idle hwr hidle (by omega) (by omega) (regAt_p a w ha hw) rfl,
      fun i _ hj => entry_writeRow_writeWord s.matP ha w v i hj⟩

end Sys2Proof.Proofs.Encoding

namespace Sys2Proof.Proofs.CodeGenerator

open Sys2Proof.Machine Sys2Proof.Config

/-! ### What changes the key (40_code_generator.md R112) -/

/-- t holds the key of s: the matrix store and its dimensions. -/
def sameKey (s t : State) : Prop :=
  t.matP = s.matP ∧ t.keyN = s.keyN ∧ t.keyK = s.keyK

/-- The registers that hold the key (10_state.md R25, R40). -/
def isKeyReg (r : Reg) : Prop := r = .keyN ∨ r = .keyK ∨ ∃ i w, r = .p i w

/-- GENP is the only command that writes the key, in success, in error or waiting. -/
theorem exec_sameKey {i : Instr} {s t : State} (hi : i ≠ .genp) (h : exec i s = .next t) : sameKey s t := by
  obtain ⟨_, hkey, _⟩ := Encoding.commandsWriteOnlyTheirRegisters i s t h
  exact hkey hi

theorem whenIdle_sameKey {s s' : State} (h : sameKey s s') : sameKey s (s.whenIdle s') := by
  rcases s.whenIdle_cases s' with ⟨_, hstored⟩ | ⟨_, hdropped⟩
  · rwa [hstored]
  · rw [hdropped]; exact ⟨rfl, rfl, rfl⟩

/-- Whatever the write is, it is dropped while busy, and only OVR changes (10_state.md R47). -/
theorem whenIdle_sameKey_or_idle (s s' : State) : sameKey s (s.whenIdle s') ∨ s.status.busy = false := by
  rcases s.whenIdle_cases s' with ⟨hidle, _⟩ | ⟨_, hdropped⟩
  · exact .inr hidle
  · rw [hdropped]; exact .inl ⟨rfl, rfl, rfl⟩

theorem writeCtrl_sameKey {s : State} {v : Word} (hsrst : v.getLsbD 1 = false) : sameKey s (writeCtrl s v) := by
  rw [writeCtrl, hsrst]
  exact ⟨rfl, rfl, rfl⟩

/-- A host write leaves the key as it is, or is a soft reset, or goes to a key register while idle. -/
theorem writeEffect_key_cases (s : State) (r : Reg) (v : Word) :
    sameKey s (writeEffect s r v) ∨ (r = .ctrl ∧ v.getLsbD 1 = true) ∨ (s.status.busy = false ∧ isKeyReg r) := by
  cases r with
  | ctrl =>
    cases hsrst : v.getLsbD 1 with
    | true => exact .inr (.inl ⟨rfl, rfl⟩)
    | false => exact .inl (writeCtrl_sameKey hsrst)
  | keyN => exact (whenIdle_sameKey_or_idle s _).imp id fun hidle => .inr ⟨hidle, .inl rfl⟩
  | keyK => exact (whenIdle_sameKey_or_idle s _).imp id fun hidle => .inr ⟨hidle, .inr (.inl rfl)⟩
  | p i w => exact (whenIdle_sameKey_or_idle s _).imp id fun hidle => .inr ⟨hidle, .inr (.inr ⟨i, w, rfl⟩)⟩
  | cmd | paramN | paramK | paramT | m | e | c => exact .inl (whenIdle_sameKey ⟨rfl, rfl, rfl⟩)
  | id | cap | status | syndWt | decStat | searchCnt | s | d | reserved => exact .inl ⟨rfl, rfl, rfl⟩

/-- A transaction leaves the key as it is, or is one of the two writes of R112, by the offset it goes to. -/
theorem transact_key_cases (s : State) (x : Txn) :
    sameKey s (transact s x) ∨ (∃ v, .bus x = wr 0x008 v ∧ v.getLsbD 1 = true) ∨
    (s.status.busy = false ∧ ∃ off v, .bus x = wr off v ∧
      (off = 0x020 ∨ off = 0x024 ∨ 0x400 ≤ off ∧ off ≤ 0x7FC)) := by
  rcases transact_cases s x with ⟨_, h⟩ | ⟨hacc, hwrite, h⟩ | ⟨_, hread, _⟩
  case inl => rw [h]; exact .inl ⟨rfl, rfl, rfl⟩
  case inr.inl =>
    have hwr : .bus x = wr x.addr.toNat x.wdata := wr_of_accepted hacc hwrite
    have h4 : x.addr.toNat % 4 = 0 := by
      by_contra hodd
      rw [(Memory.accepted_eq_false_iff x).2 (.inr hodd)] at hacc; cases hacc
    rcases writeEffect_key_cases s (regAt x.addr.toNat) x.wdata with hsame | ⟨hctrl, hsrst⟩ | ⟨hidle, hreg⟩
    · rw [h]; exact .inl hsame
    · rw [regAt_eq_ctrl _ h4 x.addr.isLt hctrl] at hwr
      exact .inr (.inl ⟨_, hwr, hsrst⟩)
    · exact .inr (.inr ⟨hidle, _, _, hwr, regAt_eq_key _ h4 x.addr.isLt hreg⟩)
  case inr.inr =>
    obtain ⟨_, _, hframe⟩ := Memory.transact_read_frame s hread
    rw [hframe]; exact .inl ⟨rfl, rfl, rfl⟩

/-- Settles O55 (40_code_generator.md R112), along the cases of a step: each either keeps the key or is one of the
four events. -/
theorem keyChangesOnlyByGenpWriteOrReset : Obligations.KeyChangesOnlyByGenpWriteOrReset := by
  intro s t hstep hchange
  have hdiff : ¬ sameKey s t := by
    rintro ⟨hp, hn, hk⟩
    rcases hchange with h | h | h
    exacts [h hp, h hn, h hk]
  rcases step_cases hstep with ⟨rest, _, _, rfl⟩ | ⟨rest, i, hnext, hbusy, hword, hexec⟩ | ⟨rest, why, _, _, _, rfl⟩ |
    ⟨rest, x, hbus, rfl⟩ | ⟨rest, hreset, _⟩ | ⟨rest, v, _, rfl⟩
  case inl => exact absurd ⟨rfl, rfl, rfl⟩ hdiff
  case inr.inl =>
    by_cases hi : i = .genp
    · subst hi; exact .inl ⟨hbusy, hword, rest, hnext⟩
    · exact absurd (exec_sameKey hi hexec) hdiff
  case inr.inr.inl => exact absurd ⟨rfl, rfl, rfl⟩ hdiff
  case inr.inr.inr.inl =>
    rcases transact_key_cases { s with inputs := rest } x with hsame | ⟨v, hwr, hsrst⟩ | ⟨hidle, off, v, hwr, hoff⟩
    · exact absurd hsame hdiff
    · exact .inr (.inr (.inl ⟨v, rest, hwr ▸ hbus, hsrst⟩))
    · exact .inr (.inr (.inr ⟨hidle, off, v, rest, hwr ▸ hbus, hoff⟩))
  case inr.inr.inr.inr.inl => exact .inr (.inl ⟨rest, hreset⟩)
  case inr.inr.inr.inr.inr => exact absurd ⟨rfl, rfl, rfl⟩ hdiff

/-! ### GENP (40_code_generator.md R110) -/

/-- Settles O15 (40_code_generator.md R110, 20_memory.md R74): LEGAL is GENP's only check, and the store it leaves is
`keyOfDraw` of the draw. -/
theorem genpReplacesTheStore : Obligations.GenpReplacesTheStore := by
  refine ⟨rfl, fun s => ⟨fun hillegal => ?_, fun hlegal hdry => ?_, fun hlegal hlive => ?_⟩⟩
  · exact exec_failed (i := .genp) nofun (State.failedCheck_of_illegal hillegal _)
  · exact Memory.drawingCommandWaitsForWords s .genp rfl hlegal nofun hdry
  · exact ⟨s.drawKey s.fresh, keyOfDraw s.k (s.n - s.k) (s.drawKey s.fresh),
      exec_ready (State.ready_of hlegal nofun fun _ => hlive), rfl, entry_keyOfDraw hlegal _⟩

/-! ### The words of P (40_code_generator.md R115, 10_state.md R41) -/

/-- A word that lies in the vector reads back as written, and every other word reads as before. -/
theorem readWord_writeWord {len : Nat} (v : BitVec len) {w : Nat} (w' : Nat) (x : Word) (hw : 32 * w + 32 ≤ len) :
    readWord (writeWord v w x) w' = if w = w' then x else readWord v w' := by
  apply BitVec.eq_of_getLsbD_eq
  intro b hb
  rw [Memory.readWord_getLsbD_of_lt _ _ hb]
  by_cases hin : 32 * w' + b < len
  · have hword : (32 * w' + b) / 32 = w' := by omega
    have hbit : (32 * w' + b) % 32 = b := by omega
    rw [writeWord_getLsbD _ _ _ _ hin, hword, hbit]
    by_cases hww : w = w'
    · rw [if_pos hww, if_pos hww.symm]
    · rw [if_neg hww, if_neg (Ne.symm hww), Memory.readWord_getLsbD_of_lt _ _ hb]
  · rw [if_neg (by rintro rfl; omega), Memory.readWord_getLsbD_of_lt _ _ hb, BitVec.getLsbD_of_ge _ _ (by omega),
      BitVec.getLsbD_of_ge _ _ (by omega)]

/-- The same for the words of P, each in its row. -/
theorem readWord_row_writeRow (p : Matrix) {i w : Nat} (i' w' : Nat) (x : Word) (hi : i < 128) (hw : w < 2) :
    readWord (row (writeRow p i (writeWord (row p i) w x)) i') w' =
      if i = i' ∧ w = w' then x else readWord (row p i') w' := by
  rw [row_writeRow _ _ _ _ hi]
  by_cases hrow : i = i'
  · subst hrow
    rw [if_pos rfl, readWord_writeWord _ _ _ (show 32 * w + 32 ≤ 64 by omega)]
    simp only [true_and]
  · rw [if_neg hrow, if_neg fun h => hrow h.1]

/-- Settles O52 (40_code_generator.md R115, 10_state.md R41): an offset of P is a row and a word of it, and the idle
write replaces that word alone. -/
theorem keyWordReadsBack : Obligations.KeyWordReadsBack := by
  intro s off off' v rest hidle hlo hhi h4 hlo' hhi' h4' hinputs
  have hreg := regAt_p_of_range off hlo hhi h4
  have hreg' := regAt_p_of_range off' hlo' hhi' h4'
  have hplace : off = off' ↔
      (off - 0x400) / 8 = (off' - 0x400) / 8 ∧ (off - 0x400) % 8 / 4 = (off' - 0x400) % 8 / 4 := by omega
  refine ⟨_, _, Encoding.step_wr_of_idle hinputs hidle h4 (by omega) hreg rfl,
    Memory.step_rd_exact rfl h4' (by omega) (.inl hidle), rfl, ?_⟩
  simp only [hplace, hreg']
  exact congrArg (some ∘ Response.okRead) (readWord_row_writeRow s.matP _ _ v (by omega) (by omega))

/-! ### Codewords (40_code_generator.md R111) -/

/-- Settles O24 (40_code_generator.md R111): the code is systematic, for `timesG` puts the parity above the message. -/
theorem codewordBeginsWithTheMessage : Obligations.CodewordBeginsWithTheMessage := by
  intro p m k r j hk _ hj
  exact timesG_getLsbD_message p m k r j hk hj

end Sys2Proof.Proofs.CodeGenerator

namespace Sys2Proof.Proofs.Encapsulator

open Sys2Proof.Machine Sys2Proof.Config

/-! ### The checks (60_exceptions.md R184, R186) -/

theorem failsWith_of_illegal {i : Instr} {s : State} (hi : i ≠ .nop) (hillegal : s.legal = false) : failsWith i s 1 :=
  exec_failed hi (State.failedCheck_of_illegal hillegal _)

theorem failsWith_of_mismatch {i : Instr} {s : State} (hkey : usesKey i = true) (hlegal : s.legal = true)
    (hmismatch : s.keyMatches = false) : failsWith i s 3 := by
  have hi : i ≠ .nop := by rintro rfl; cases hkey
  exact exec_failed hi (hkey ▸ State.failedCheck_of_mismatch hlegal hmismatch)

/-! ### GENM (41_encapsulator.md R120) -/

/-- Settles O16 (41_encapsulator.md R120, 20_memory.md R74): LEGAL is GENM's only check, and what it leaves in M is
`drawMessage`. -/
theorem genmDrawsTheMessage : Obligations.GenmDrawsTheMessage := by
  refine ⟨rfl, fun s => ⟨failsWith_of_illegal nofun, fun hlegal hdry => ?_, fun hlegal hlive => ?_⟩⟩
  · exact Memory.drawingCommandWaitsForWords s .genm rfl hlegal nofun hdry
  · exact ⟨s.drawMessage s.fresh, exec_ready (State.ready_of hlegal nofun fun _ => hlive),
      State.drawMessage_spec hlegal _⟩

/-! ### The error vector (41_encapsulator.md R121 to R124) -/

/-- Settles O25 (41_encapsulator.md R121): t ≤ n leaves at most k errors once the redundancy part is full. -/
theorem errorPartitionFits : Obligations.ErrorPartitionFits := by
  intro s hlegal
  obtain ⟨_, _, _, _, htn, _⟩ := State.legal_bounds hlegal
  have hred : s.errorsInRedundancy = min s.t (s.n - s.k) := rfl
  have hinfo : s.errorsInInfo = s.t - min s.t (s.n - s.k) := rfl
  exact ⟨hred, hinfo, by omega, by omega⟩

/-- Settles O17 (41_encapsulator.md R121, R122, 20_memory.md R74): LEGAL is GENE's only check, and what it leaves in E
is `drawError`, with its parts and their weights. -/
theorem genePlacesTwoSubsets : Obligations.GenePlacesTwoSubsets := by
  refine ⟨rfl, fun s => ⟨failsWith_of_illegal nofun, fun hlegal hdry => ?_, fun hlegal hlive => ?_⟩⟩
  · exact Memory.drawingCommandWaitsForWords s .gene rfl hlegal nofun hdry
  · obtain ⟨hinfo, hred⟩ := State.drawError_parts hlegal s.fresh
    exact ⟨s.drawError s.fresh, exec_ready (State.ready_of hlegal nofun fun _ => hlive), hinfo, fun j _ => hred j,
      State.drawError_spec hlegal s.fresh⟩

section

variable {s : State} (hlegal : s.legal = true) (idx : Nat)

include hlegal

/-- The two subsets together have t positions. -/
theorem drawError_weight_below_n : countOver s.n (fun j => (s.drawError idx).getLsbD j) = s.t := by
  obtain ⟨_, hkn, _⟩ := State.legal_bounds hlegal
  obtain ⟨hinfo, hred, _⟩ := State.drawError_spec hlegal idx
  have hsplit := countOver_add (fun j => (s.drawError idx).getLsbD j) s.k (s.n - s.k)
  rw [hinfo, hred, Nat.add_sub_cancel' hkn.le] at hsplit
  omega

theorem drawError_weight : countOver NMAX (fun j => (s.drawError idx).getLsbD j) = s.t := by
  obtain ⟨_, _, _, _, _, hn⟩ := State.legal_bounds hlegal
  have hwidth : s.n + (NMAX - s.n) = NMAX := Nat.add_sub_cancel' hn
  obtain ⟨_, _, habove⟩ := State.drawError_spec hlegal idx
  have hsplit := countOver_add (fun j => (s.drawError idx).getLsbD j) s.n (NMAX - s.n)
  rw [drawError_weight_below_n hlegal, (countOver_eq_zero _ _).2 fun j _ => habove (s.n + j) (by omega),
    hwidth] at hsplit
  exact hsplit

/-- With room for all errors in the redundancy part, none is in the information part. -/
theorem drawError_info_eq_zero (ht : s.t ≤ s.n - s.k) (j : Nat) (hj : j < s.k) :
    (s.drawError idx).getLsbD j = false := by
  obtain ⟨hinfo, _⟩ := State.drawError_spec hlegal idx
  exact (countOver_eq_zero _ _).1 (hinfo.trans (by omega)) j hj

/-- With at least as many errors as redundancy positions, each of these holds one. -/
theorem drawError_redundancy_eq_one (ht : s.n - s.k ≤ s.t) (j : Nat) (hkj : s.k ≤ j) (hj : j < s.n) :
    (s.drawError idx).getLsbD j = true := by
  obtain ⟨_, hred, _⟩ := State.drawError_spec hlegal idx
  have hfull := (countOver_eq_self _ _).1 (hred.trans (min_eq_right ht)) (j - s.k) (by omega)
  rwa [Nat.add_sub_cancel' hkj] at hfull

end

/-- Settles O26 (41_encapsulator.md R123): each corner case fixes a weight of `drawError` at 0 or at its maximum. -/
theorem geneCornerCases : Obligations.GeneCornerCases := by
  intro s u hlegal hlive hgene
  obtain rfl := exec_unique (i := .gene) (State.ready_of hlegal nofun fun _ => hlive) hgene
  obtain ⟨hinfo, _, habove⟩ := State.drawError_spec hlegal s.fresh
  refine ⟨fun ht => ?_, drawError_info_eq_zero hlegal s.fresh, drawError_redundancy_eq_one hlegal s.fresh,
    fun ht => ?_, fun ht => ?_, habove⟩
  · have hzero := (countOver_eq_zero _ _).1 ((drawError_weight hlegal s.fresh).trans ht)
    exact BitVec.eq_of_getLsbD_eq fun j hj => (hzero j hj).trans BitVec.getLsbD_zero.symm
  · exact hinfo.trans (by omega)
  · exact (countOver_eq_self _ _).1 ((drawError_weight_below_n hlegal s.fresh).trans ht)

theorem effect_regE_eq_drawError {i : Instr} (hi : i = .gene ∨ i = .encap) (s : State) :
    ∃ idx, (effect i s).regE = s.drawError idx := by
  rcases hi with rfl | rfl
  · exact ⟨s.fresh, rfl⟩
  · exact ⟨s.fresh + 1, rfl⟩

/-- Settles O27 (41_encapsulator.md R124): E is a drawn error vector, whichever of the two commands drew it. -/
theorem errorWeightIsExactlyT : Obligations.ErrorWeightIsExactlyT := by
  intro s u i hi hready hexec
  have hlegal : s.legal = true := by
    rcases hready with rfl | ⟨hlegal, _⟩
    · rcases hi with h | h <;> cases h
    · exact hlegal
  obtain rfl := exec_unique hready hexec
  obtain ⟨idx, hdrawn⟩ := effect_regE_eq_drawError hi s
  rw [State.succeed_regE, hdrawn]
  exact ⟨drawError_weight_below_n hlegal idx, drawError_weight hlegal idx, drawError_info_eq_zero hlegal idx⟩

/-! ### Codewords (41_encapsulator.md R125, R126) -/

/-- c is the codeword m·G of the message m under the store p, for lengths n and k: m, then m·P, then zeros. -/
def isCodeword (n k : Nat) (p : Matrix) (m : Nat → Bool) (c : BitVec NMAX) : Prop :=
  (∀ j, j < k → c.getLsbD j = m j) ∧ (∀ j, j < n - k → c.getLsbD (k + j) = productBit p k m j) ∧
  (∀ j, n ≤ j → c.getLsbD j = false)

section

variable {n k : Nat} {p p' : Matrix} {m m' : Nat → Bool} {c c' : BitVec NMAX}

/-- A position is in the message part, in the redundancy part, or above the word. -/
theorem eq_of_eq_parts (hlow : ∀ j, j < k → c.getLsbD j = c'.getLsbD j)
    (hhigh : ∀ j, j < n - k → c.getLsbD (k + j) = c'.getLsbD (k + j))
    (habove : ∀ j, n ≤ j → c.getLsbD j = c'.getLsbD j) : c = c' := by
  refine BitVec.eq_of_getLsbD_eq fun j _ => ?_
  rcases Nat.lt_or_ge j k with hj | hj
  · exact hlow j hj
  · rcases Nat.lt_or_ge j n with hjn | hjn
    · have := hhigh (j - k) (by omega)
      rwa [Nat.add_sub_cancel' hj] at this
    · exact habove j hjn

theorem isCodeword_unique (h : isCodeword n k p m c) (h' : isCodeword n k p m c') : c = c' := by
  obtain ⟨hlow, hhigh, habove⟩ := h
  obtain ⟨hlow', hhigh', habove'⟩ := h'
  exact eq_of_eq_parts (fun j hj => (hlow j hj).trans (hlow' j hj).symm)
    (fun j hj => (hhigh j hj).trans (hhigh' j hj).symm) fun j hj => (habove j hj).trans (habove' j hj).symm

/-- A codeword depends on the message below k and on the entries of the key only. -/
theorem isCodeword_congr (hm : ∀ j, j < k → m j = m' j)
    (hp : ∀ i j, i < k → j < n - k → entry p i j = entry p' i j) (h : isCodeword n k p m c) :
    isCodeword n k p' m' c := by
  obtain ⟨hlow, hhigh, habove⟩ := h
  exact ⟨fun j hj => (hlow j hj).trans (hm j hj),
    fun j hj => (hhigh j hj).trans (productBit_congr k j hm fun i hi => hp i j hi hj), habove⟩

theorem isCodeword_zero (hm : ∀ j, j < k → m j = false) : isCodeword n k p m 0 :=
  ⟨fun j hj => BitVec.getLsbD_zero.trans (hm j hj).symm,
    fun j _ => BitVec.getLsbD_zero.trans (productBit_zero p k j hm).symm, fun _ _ => BitVec.getLsbD_zero⟩

/-- The code is linear. -/
theorem isCodeword_xor (h : isCodeword n k p m c) (h' : isCodeword n k p m' c') :
    isCodeword n k p (fun j => m j ^^ m' j) (c ^^^ c') := by
  obtain ⟨hlow, hhigh, habove⟩ := h
  obtain ⟨hlow', hhigh', habove'⟩ := h'
  refine ⟨fun j hj => ?_, fun j hj => ?_, fun j hj => ?_⟩
  · rw [BitVec.getLsbD_xor, hlow j hj, hlow' j hj]
  · rw [BitVec.getLsbD_xor, hhigh j hj, hhigh' j hj, productBit_xor]
  · rw [BitVec.getLsbD_xor, habove j hj, habove' j hj]; rfl

end

theorem timesG_isCodeword {s : State} (hlegal : s.legal = true) {m : BitVec KMAX}
    (hm : ∀ j, s.k ≤ j → m.getLsbD j = false) :
    isCodeword s.n s.k s.matP m.getLsbD (timesG s.matP m s.k (s.n - s.k)) := by
  obtain ⟨_, _, hk, hr, _⟩ := State.legal_bounds hlegal
  exact ⟨fun j hj => timesG_getLsbD_message _ _ _ _ _ hk hj,
    fun j hj => timesG_getLsbD_parity _ _ _ _ _ hk hr hm hj,
    fun j hj => StateRules.codeword_zero_above hlegal hm hj⟩

/-- MULG multiplies M below k; a codeword does not see M above. -/
theorem effect_mulg_isCodeword {s : State} (hlegal : s.legal = true) :
    isCodeword s.n s.k s.matP s.regM.getLsbD (effect .mulg s).regC := by
  have hslice := slice_message_getLsbD hlegal s.regM
  refine isCodeword_congr (fun j hj => ?_) (fun _ _ _ _ => rfl) (timesG_isCodeword hlegal fun j hj => ?_)
  · rw [hslice j, decide_eq_true hj, Bool.true_and]
  · rw [hslice j, decide_eq_false (Nat.not_lt.2 hj), Bool.false_and]

theorem exec_mulg_isCodeword {s u : State} (hlegal : s.legal = true) (hkey : s.keyMatches = true)
    (h : exec .mulg s = .next u) : isCodeword s.n s.k s.matP s.regM.getLsbD u.regC := by
  obtain rfl := exec_unique (i := .mulg) (State.ready_of hlegal (fun _ => hkey) nofun) h
  exact effect_mulg_isCodeword hlegal

/-- Settles O19 (41_encapsulator.md R125): MULG's checks are LEGAL and the key, and what it leaves in C is the codeword
of M. -/
theorem mulgWritesTheCodeword : Obligations.MulgWritesTheCodeword := by
  refine ⟨rfl, fun s => ⟨failsWith_of_illegal nofun, failsWith_of_mismatch rfl, fun hlegal hkey => ?_⟩⟩
  exact ⟨(effect .mulg s).regC, exec_ready (State.ready_of hlegal (fun _ => hkey) nofun),
    effect_mulg_isCodeword hlegal⟩

/-- Settles O28 (41_encapsulator.md R126): a codeword is unique, so each case names the codeword that the rule asks
for. -/
theorem mulgCornerCases : Obligations.MulgCornerCases := by
  intro s u hlegal hkey hmulg
  have hword := exec_mulg_isCodeword hlegal hkey hmulg
  have ⟨hlow, hhigh, habove⟩ := hword
  refine ⟨fun hzero => ?zero, fun a ha hunit => ⟨fun j hj => ?unit_low, fun j hj => ?unit_high⟩,
    fun m u₁ u₂ h₁ h₂ => ?linear, fun m p u' hm hp h' => ?unused, habove, hlow⟩
  case zero => exact isCodeword_unique hword (isCodeword_zero hzero)
  case unit_low => exact (hlow j hj).trans (hunit j hj)
  case unit_high =>
    rw [hhigh j hj, productBit_congr s.k j hunit fun _ _ => rfl, productBit_unit _ _ _ _ ha]
  case linear =>
    have hword₁ := exec_mulg_isCodeword (s := { s with regM := m }) hlegal hkey h₁
    have hword₂ := exec_mulg_isCodeword (s := { s with regM := s.regM ^^^ m }) hlegal hkey h₂
    have hsum := isCodeword_congr (fun _ _ => BitVec.getLsbD_xor.symm) (fun _ _ _ _ => rfl)
      (isCodeword_xor hword hword₁)
    exact isCodeword_unique hword₂ hsum
  case unused =>
    have hword' := exec_mulg_isCodeword (s := { s with regM := m, matP := p }) hlegal hkey h'
    exact isCodeword_unique (isCodeword_congr hm hp hword') hword

/-! ### Adding the error (41_encapsulator.md R127, R128) -/

/-- d is c XOR e below n, and 0 from n up. -/
def isSum (n : Nat) (c e d : BitVec NMAX) : Prop :=
  (∀ j, j < n → d.getLsbD j = (c.getLsbD j ^^ e.getLsbD j)) ∧ (∀ j, n ≤ j → d.getLsbD j = false)

theorem isSum_unique {n : Nat} {c e d d' : BitVec NMAX} (h : isSum n c e d) (h' : isSum n c e d') : d = d' := by
  obtain ⟨hbelow, habove⟩ := h
  obtain ⟨hbelow', habove'⟩ := h'
  refine BitVec.eq_of_getLsbD_eq fun j _ => ?_
  rcases Nat.lt_or_ge j n with hj | hj
  · exact (hbelow j hj).trans (hbelow' j hj).symm
  · exact (habove j hj).trans (habove' j hj).symm

theorem effect_xore_isSum {s : State} (hlegal : s.legal = true) :
    isSum s.n s.regC s.regE (effect .xore s).regC := by
  have hbit (j : Nat) : (effect .xore s).regC.getLsbD j =
      ((decide (j < s.n) && s.regC.getLsbD j) ^^ (decide (j < s.n) && s.regE.getLsbD j)) := by
    rw [← slice_word_getLsbD hlegal, ← slice_word_getLsbD hlegal]
    exact BitVec.getLsbD_xor
  constructor
  · intro j hj
    rw [hbit, decide_eq_true hj, Bool.true_and, Bool.true_and]
  · intro j hj
    rw [hbit, decide_eq_false (Nat.not_lt.2 hj), Bool.false_and, Bool.false_and]; rfl

theorem exec_xore {s : State} (hlegal : s.legal = true) : exec .xore s = .next (effect .xore s).succeed :=
  exec_ready (State.ready_of hlegal nofun nofun)

/-- Settles O20 (41_encapsulator.md R127): LEGAL is XORE's only check, and what it leaves in C is the sum. -/
theorem xoreAddsTheErrorPattern : Obligations.XoreAddsTheErrorPattern := by
  refine ⟨rfl, fun s => ⟨failsWith_of_illegal nofun, fun hlegal => ?_⟩⟩
  exact ⟨(effect .xore s).regC, exec_xore hlegal, effect_xore_isSum hlegal⟩

/-- Settles O29 (41_encapsulator.md R128): the second sum cancels the first. -/
theorem xoreTwiceRestores : Obligations.XoreTwiceRestores := by
  intro s u hlegal hxore
  obtain rfl := exec_unique (i := .xore) (State.ready_of hlegal nofun nofun) hxore
  obtain ⟨hbelow, habove⟩ := effect_xore_isSum hlegal
  have hlegal' : (effect .xore s).succeed.legal = true := hlegal
  obtain ⟨hbelow', _⟩ := effect_xore_isSum hlegal'
  refine ⟨fun hzero j => ?_, ⟨_, exec_xore hlegal', fun j hj => ?_⟩, rfl⟩
  · rw [State.succeed_regC]
    rcases Nat.lt_or_ge j s.n with hj | hj
    · have herr : s.regE.getLsbD j = false := hzero ▸ BitVec.getLsbD_zero
      rw [hbelow j hj, herr, decide_eq_true hj, Bool.xor_false, Bool.true_and]
    · rw [habove j hj, decide_eq_false (Nat.not_lt.2 hj), Bool.false_and]
  · rw [State.succeed_regC, hbelow' j hj, State.succeed_regC, hbelow j hj, Bool.xor_assoc]
    exact (congrArg _ (Bool.xor_self _)).trans (Bool.xor_false _)

/-! ### The ciphertext (41_encapsulator.md R129 to R131) -/

/-- u holds in C the codeword of its own M under the store p, for lengths n and k, with its own E added. -/
def holdsCiphertext (n k : Nat) (p : Matrix) (u : State) : Prop :=
  ∃ c, isCodeword n k p u.regM.getLsbD c ∧ isSum n c u.regE u.regC

theorem effect_encap_holdsCiphertext {s : State} (hlegal : s.legal = true) :
    holdsCiphertext s.n s.k s.matP (effect .encap s) := by
  obtain ⟨_, hmzero⟩ := State.drawMessage_spec hlegal s.fresh
  obtain ⟨_, _, hezero⟩ := State.drawError_spec hlegal (s.fresh + 1)
  have hword := timesG_isCodeword hlegal hmzero
  refine ⟨_, hword, fun j _ => BitVec.getLsbD_xor, fun j hj => ?_⟩
  obtain ⟨_, _, hwzero⟩ := hword
  refine BitVec.getLsbD_xor.trans ?_
  rw [hwzero j hj, hezero j hj]; rfl

/-- MULG leaves M, E and the parameter set as they are, and XORE those and P, so the sum is of the codeword of M. -/
theorem effect_mulg_xore_holdsCiphertext {s : State} (hlegal : s.legal = true) :
    holdsCiphertext s.n s.k s.matP (effect .xore (effect .mulg s).succeed) :=
  ⟨_, effect_mulg_isCodeword hlegal, effect_xore_isSum (s := (effect .mulg s).succeed) hlegal⟩

/-- M and E determine the ciphertext. -/
theorem holdsCiphertext_unique {n k : Nat} {p : Matrix} {u u' : State} (h : holdsCiphertext n k p u)
    (h' : holdsCiphertext n k p u') (hm : u.regM = u'.regM) (he : u.regE = u'.regE) : u.regC = u'.regC := by
  obtain ⟨c, hword, hsum⟩ := h
  obtain ⟨c', hword', hsum'⟩ := h'
  rw [hm] at hword
  rw [he, isCodeword_unique hword hword'] at hsum
  exact isSum_unique hsum hsum'

/-- The ciphertext part by part (41_encapsulator.md R131). -/
theorem holdsCiphertext_parts {n k : Nat} {p : Matrix} {u : State} (hkn : k ≤ n) (h : holdsCiphertext n k p u) :
    (∀ j, j < k → u.regC.getLsbD j = (u.regM.getLsbD j ^^ u.regE.getLsbD j)) ∧
    (∀ j, j < n - k → u.regC.getLsbD (k + j) =
      (productBit p k (fun i => u.regM.getLsbD i) j ^^ u.regE.getLsbD (k + j))) ∧
    (∀ j, n ≤ j → u.regC.getLsbD j = false) := by
  obtain ⟨c, ⟨hlow, hhigh, _⟩, hbelow, habove⟩ := h
  exact ⟨fun j hj => by rw [hbelow j (by omega), hlow j hj],
    fun j hj => by rw [hbelow (k + j) (by omega), hhigh j hj], habove⟩

/-- Settles O21 (41_encapsulator.md R129, R121, 20_memory.md R74): ENCAP's checks are LEGAL and the key, its draws are
those of GENM and GENE, and what it leaves in C is the ciphertext of the two. -/
theorem encapWritesTheCiphertext : Obligations.EncapWritesTheCiphertext := by
  refine ⟨rfl, fun s => ⟨failsWith_of_illegal nofun, failsWith_of_mismatch rfl, fun hlegal hkey hdry => ?_,
    fun hlegal hkey hlive => ?_⟩⟩
  · exact Memory.drawingCommandWaitsForWords s .encap rfl hlegal (fun _ => hkey) hdry
  · obtain ⟨_, hkn, _⟩ := State.legal_bounds hlegal
    obtain ⟨hm, hmzero⟩ := State.drawMessage_spec hlegal s.fresh
    obtain ⟨hinfo, hred⟩ := State.drawError_parts hlegal (s.fresh + 1)
    obtain ⟨hinfoWeight, hredWeight, hezero⟩ := State.drawError_spec hlegal (s.fresh + 1)
    exact ⟨s.drawMessage s.fresh, s.drawError (s.fresh + 1), (effect .encap s).regC,
      exec_ready (State.ready_of hlegal (fun _ => hkey) fun _ => hlive), hm, hmzero, hinfo, fun j _ => hred j,
      hinfoWeight, hredWeight, hezero, holdsCiphertext_parts hkn.le (effect_encap_holdsCiphertext hlegal)⟩

/-- Settles O31 (41_encapsulator.md R131): both routes leave a ciphertext, and where E is 0 its information part
is M. -/
theorem ciphertextStructure : Obligations.CiphertextStructure := by
  intro s u hlegal hkey hroute
  have hencap : s.rndValid = true → exec .encap s = .next u → u = (effect .encap s).succeed := fun hlive h =>
    exec_unique (State.ready_of hlegal (fun _ => hkey) fun _ => hlive) h
  have hcipher : holdsCiphertext s.n s.k s.matP u := by
    rcases hroute with ⟨hlive, h⟩ | ⟨w, hmulg, hxore⟩
    · obtain rfl := hencap hlive h
      exact effect_encap_holdsCiphertext hlegal
    · obtain rfl := exec_unique (i := .mulg) (State.ready_of hlegal (fun _ => hkey) nofun) hmulg
      obtain rfl := exec_unique (i := .xore) (State.ready_of (s := (effect .mulg s).succeed) hlegal nofun nofun) hxore
      exact effect_mulg_xore_holdsCiphertext hlegal
  obtain ⟨_, hkn, _⟩ := State.legal_bounds hlegal
  obtain ⟨hlow, hhigh, habove⟩ := holdsCiphertext_parts hkn.le hcipher
  refine ⟨hlow, hhigh, habove, fun hclean j hj => ?_⟩
  have hzero : u.regE.getLsbD j = false := by
    rcases hclean with hclean | ⟨ht, hlive, h⟩
    · exact hclean j hj
    · obtain rfl := hencap hlive h
      exact drawError_info_eq_zero hlegal (s.fresh + 1) ht j hj
  rw [hlow j hj, hzero, Bool.xor_false]

/-! ### ENCAP and its parts (41_encapsulator.md R130) -/

/-- The state that a successful completion of i leaves, its command word latched. -/
def completed (i : Instr) (s : State) : State := (effect i (s.latched (encode i))).succeed

/-- No check looks at CMD_IF. -/
theorem exec_latched {i : Instr} {s : State} (hready : s.ready i) :
    exec i (s.latched (encode i)) = .next (completed i s) :=
  exec_ready (s := s.latched (encode i)) hready

section

variable (i : Instr) (s : State)

theorem completed_err : (completed i s).status.err = false := rfl

theorem completed_lastop : (completed i s).status.lastop = opcode i := by
  rw [completed, State.succeed_status, effect_cmdIf]
  exact Encoding.opcOf_encode i

/-! No command changes the parameter set, the random source, or what is computed from the parameter set. -/

@[simp] theorem completed_n : (completed i s).n = s.n := by
  obtain ⟨_, _, hn, _⟩ := effect_frame i (s.latched (encode i))
  exact congrArg BitVec.toNat hn

@[simp] theorem completed_k : (completed i s).k = s.k := by
  obtain ⟨_, _, _, hk, _⟩ := effect_frame i (s.latched (encode i))
  exact congrArg BitVec.toNat hk

@[simp] theorem completed_t : (completed i s).t = s.t := by
  obtain ⟨_, _, _, _, ht, _⟩ := effect_frame i (s.latched (encode i))
  exact congrArg BitVec.toNat ht

@[simp] theorem completed_legal : (completed i s).legal = s.legal := by
  simp only [State.legal, completed_n, completed_k, completed_t]

@[simp] theorem completed_rndValid : (completed i s).rndValid = s.rndValid := by
  obtain ⟨_, _, _, _, _, _, _, hrnd, _⟩ := effect_frame i (s.latched (encode i))
  exact hrnd

@[simp] theorem completed_drawError (idx : Nat) : (completed i s).drawError idx = s.drawError idx := by
  simp only [State.drawError, State.drawInfo, State.drawRedundancy, State.errorsInInfo, State.errorsInRedundancy,
    completed_n, completed_k, completed_t]

end

section

variable {i : Instr} (s : State)

theorem completed_matP (hi : i ≠ .genp) : (completed i s).matP = s.matP := by
  obtain ⟨hp, _⟩ := Encoding.effect_key_of_ne (s.latched (encode i)) hi
  exact hp

theorem completed_keyMatches (hi : i ≠ .genp) : (completed i s).keyMatches = s.keyMatches := by
  obtain ⟨_, hkeyN, hkeyK⟩ := Encoding.effect_key_of_ne (s.latched (encode i)) hi
  obtain ⟨_, _, hn, hk, _⟩ := effect_frame i (s.latched (encode i))
  simp only [State.keyMatches, completed, State.succeed_keyN, State.succeed_keyK, State.succeed_paramN,
    State.succeed_paramK, hkeyN, hkeyK, hn, hk]
  rfl

theorem completed_regM (hgenm : i ≠ .genm) (hencap : i ≠ .encap) : (completed i s).regM = s.regM :=
  Encoding.effect_regM_of_ne (s.latched (encode i)) hgenm hencap

theorem completed_regE (hgene : i ≠ .gene) (hencap : i ≠ .encap) : (completed i s).regE = s.regE :=
  Encoding.effect_regE_of_ne (s.latched (encode i)) hgene hencap

theorem completed_fresh (hi : draws i = false) : (completed i s).fresh = s.fresh :=
  Encoding.effect_fresh_of_not_draws (s.latched (encode i)) hi

end

/-- GENM and GENE in turn, each with its word latched. -/
def afterDraws (s : State) : State := completed .gene (completed .genm s)

/-- GENM, GENE, MULG and XORE in turn, each with its word latched. -/
def afterParts (s : State) : State := completed .xore (completed .mulg (afterDraws s))

section

variable (s : State)

/-- GENM takes the draw that ENCAP takes for m. -/
theorem afterParts_regM : (afterParts s).regM = (completed .encap s).regM := by
  rw [afterParts, completed_regM (i := .xore) _ nofun nofun, completed_regM (i := .mulg) _ nofun nofun, afterDraws,
    completed_regM (i := .gene) _ nofun nofun]
  rfl

/-- GENE takes the draws that ENCAP takes for e. -/
theorem afterParts_regE : (afterParts s).regE = (completed .encap s).regE := by
  have hgene : (afterDraws s).regE = (completed .genm s).drawError (s.fresh + 1) := rfl
  rw [afterParts, completed_regE (i := .xore) _ nofun nofun, completed_regE (i := .mulg) _ nofun nofun, hgene,
    completed_drawError]
  rfl

theorem afterParts_fresh : (afterParts s).fresh = (completed .encap s).fresh := by
  rw [afterParts, completed_fresh _ rfl, completed_fresh _ rfl]
  rfl

variable {s}

theorem afterParts_holdsCiphertext (hlegal : s.legal = true) : holdsCiphertext s.n s.k s.matP (afterParts s) := by
  have hsum := effect_mulg_xore_holdsCiphertext (s := afterDraws s) (by simpa only [afterDraws, completed_legal])
  simp only [afterDraws, completed_n, completed_k] at hsum
  rw [completed_matP (i := .gene) _ nofun, completed_matP (i := .genm) _ nofun] at hsum
  exact hsum

theorem completed_encap_holdsCiphertext (hlegal : s.legal = true) :
    holdsCiphertext s.n s.k s.matP (completed .encap s) :=
  effect_encap_holdsCiphertext (s := s.latched (encode .encap)) hlegal

/-- The two routes hold the same M and E, and these determine C. -/
theorem afterParts_regC (hlegal : s.legal = true) : (afterParts s).regC = (completed .encap s).regC :=
  holdsCiphertext_unique (afterParts_holdsCiphertext hlegal) (completed_encap_holdsCiphertext hlegal)
    (afterParts_regM s) (afterParts_regE s)

end

/-- Settles O30 (41_encapsulator.md R130, 92_eei_decisions.md D32): each command of the sequence leaves what the checks
of the next look at, so all complete, and `afterParts` and ENCAP leave the same registers. -/
theorem encapEqualsItsParts : Obligations.EncapEqualsItsParts := by
  intro s hlegal hlive
  have hgenm : s.ready .genm := State.ready_of hlegal nofun fun _ => hlive
  refine ⟨fun hkey => ?matched, fun hmismatch => ?mismatched⟩
  case matched =>
    have hkey' : (afterDraws s).keyMatches = true := by
      rw [afterDraws, completed_keyMatches (i := .gene) _ nofun, completed_keyMatches (i := .genm) _ nofun, hkey]
    have hgene : (completed .genm s).ready .gene :=
      State.ready_of (by rwa [completed_legal]) nofun fun _ => by rwa [completed_rndValid]
    have hmulg : (afterDraws s).ready .mulg :=
      State.ready_of (by rwa [afterDraws, completed_legal, completed_legal]) (fun _ => hkey') nofun
    have hxore : (completed .mulg (afterDraws s)).ready .xore :=
      State.ready_of (by rwa [afterDraws, completed_legal, completed_legal, completed_legal]) nofun nofun
    have hencap : s.ready .encap := State.ready_of hlegal (fun _ => hkey) fun _ => hlive
    exact ⟨completed .genm s, afterDraws s, completed .mulg (afterDraws s), afterParts s, completed .encap s,
      exec_latched hgenm, exec_latched hgene, exec_latched hmulg, exec_latched hxore, exec_latched hencap,
      completed_err _ _, completed_err _ _, completed_err _ _, completed_err _ _, completed_err _ _,
      afterParts_regM s, afterParts_regE s, afterParts_regC hlegal, afterParts_fresh s,
      completed_lastop .xore _, completed_lastop .encap s⟩
  case mismatched =>
    have hgene : (effect .genm s).succeed.ready .gene := State.ready_of hlegal nofun fun _ => hlive
    exact ⟨_, _, exec_ready hgenm, rfl, exec_ready hgene, rfl,
      failsWith_of_mismatch rfl hlegal hmismatch, failsWith_of_mismatch rfl hlegal hmismatch⟩

end Sys2Proof.Proofs.Encapsulator

namespace Sys2Proof.Proofs.Decapsulator

open Sys2Proof.Machine Sys2Proof.Config

/-! ### The syndrome (42_decapsulator.md R150 to R152) -/

section

variable {s : State} (hlegal : s.legal = true)

include hlegal

theorem syndrome_bit {j : Nat} (hj : j < s.n - s.k) :
    s.syndrome.getLsbD j = s.mismatchBit (fun i => s.regC.getLsbD i) j := by
  rw [State.syndrome_getLsbD hlegal, decide_eq_true hj, Bool.true_and]

theorem syndrome_zero_above (j : Nat) (hj : s.n - s.k ≤ j) : s.syndrome.getLsbD j = false := by
  rw [State.syndrome_getLsbD hlegal, decide_eq_false (Nat.not_lt.2 hj), Bool.false_and]

/-- SYND_WT is wide enough for pe. -/
theorem syndWt_toNat : s.withSyndrome.syndWt.toNat = s.parityErrors := by
  obtain ⟨_, _, _, hr, _⟩ := State.legal_bounds hlegal
  have hle : s.parityErrors ≤ s.n - s.k := State.parityErrors_le
  rw [State.withSyndrome_syndWt, BitVec.toNat_ofNat, State.popcount_syndrome hlegal, Nat.mod_eq_of_lt (by omega)]

theorem parityErrors_eq_weight_of_syndrome :
    s.parityErrors = countOver (s.n - s.k) fun j => s.syndrome.getLsbD j :=
  countOver_congr _ fun _ hj => (syndrome_bit hlegal hj).symm

end

/-- Settles O22 (42_decapsulator.md R150): SYND's checks are LEGAL and the key, and what it leaves in S is the mismatch
of the received word. -/
theorem syndWritesTheSyndrome : Obligations.SyndWritesTheSyndrome := by
  refine ⟨rfl, fun s => ⟨Encapsulator.failsWith_of_illegal nofun, Encapsulator.failsWith_of_mismatch rfl,
    fun hlegal hkey => ?_⟩⟩
  exact ⟨s.syndrome, s.withSyndrome.syndWt, exec_ready (State.ready_of hlegal (fun _ => hkey) nofun),
    fun j hj => syndrome_bit hlegal hj, syndrome_zero_above hlegal,
    (syndWt_toNat hlegal).trans (parityErrors_eq_weight_of_syndrome hlegal)⟩

/-- Settles O33 (42_decapsulator.md R152): pe counts among n - k positions, and a C that agrees below n agrees on all
that SYND reads. -/
theorem syndCornerCases : Obligations.SyndCornerCases := by
  intro s u hlegal hkey hsynd
  obtain rfl := exec_unique (i := .synd) (State.ready_of hlegal (fun _ => hkey) nofun) hsynd
  refine ⟨(syndWt_toNat hlegal).trans_le State.parityErrors_le, syndrome_zero_above hlegal, fun c u' hc hsynd' => ?_⟩
  have hready' : ({ s with regC := c } : State).ready .synd := State.ready_of hlegal (fun _ => hkey) nofun
  obtain rfl := exec_unique hready' hsynd'
  have hagree : s.agreesOnInputs { s with regC := c } :=
    ⟨rfl, rfl, rfl, rfl, rfl, rfl, fun _ _ => rfl, fun _ _ => rfl, fun j hj => (hc j hj).symm, fun _ _ _ _ => rfl⟩
  obtain ⟨hS, hwt, _⟩ := StateRules.effect_syndrome_agrees (i := .synd) hlegal hagree (.inl rfl)
  exact ⟨hS.symm, hwt.symm⟩

/-! ### Received words m·G + e (42_decapsulator.md R151) -/

/-- C holds (m ++ m·P) XOR e below n. -/
def receives (s : State) (m e : Nat → Bool) : Prop :=
  (∀ j, j < s.k → s.regC.getLsbD j = (m j ^^ e j)) ∧
  ∀ j, j < s.n - s.k → s.regC.getLsbD (s.k + j) = (productBit s.matP s.k m j ^^ e (s.k + j))

/-- The mismatch of a candidate is the product of its difference from m, with the redundancy error added. -/
theorem mismatchBit_of_redundancy {s : State} {m cand : Nat → Bool} {j : Nat} {x : Bool}
    (hC : s.regC.getLsbD (s.k + j) = (productBit s.matP s.k m j ^^ x)) :
    s.mismatchBit cand j = (productBit s.matP s.k (fun i => cand i ^^ m i) j ^^ x) := by
  rw [State.mismatchBit, hC, productBit_xor, Bool.xor_assoc]

/-- The mismatch of the received word with the bits of `flips` flipped: m cancels. -/
theorem mismatchBit_of_receives {s : State} {m e : Nat → Bool} (h : receives s m e) (flips : Nat → Bool) {j : Nat}
    (hj : j < s.n - s.k) :
    s.mismatchBit (fun i => s.regC.getLsbD i ^^ flips i) j =
      (productBit s.matP s.k (fun i => e i ^^ flips i) j ^^ e (s.k + j)) := by
  obtain ⟨hlow, hhigh⟩ := h
  rw [mismatchBit_of_redundancy (hhigh j hj)]
  congr 1
  refine productBit_congr _ _ (fun i hi => ?_) fun _ _ => rfl
  rw [hlow i hi]
  rw [Bool.xor_comm, Bool.xor_assoc (m i), ← Bool.xor_assoc (m i), Bool.xor_self, Bool.false_xor]

theorem syndrome_bit_of_receives {s : State} (hlegal : s.legal = true) {m e : Nat → Bool} (h : receives s m e) {j : Nat}
    (hj : j < s.n - s.k) : s.syndrome.getLsbD j = (productBit s.matP s.k e j ^^ e (s.k + j)) := by
  have hmismatch := mismatchBit_of_receives h (fun _ => false) hj
  simp only [Bool.xor_false] at hmismatch
  rw [syndrome_bit hlegal hj, hmismatch]

theorem received_of_clean_info {s : State} {m e : Nat → Bool} (hlow : ∀ j, j < s.k → s.regC.getLsbD j = (m j ^^ e j))
    (hclean : ∀ j, j < s.k → e j = false) (j : Nat) (hj : j < s.k) : s.regC.getLsbD j = m j := by
  rw [hlow j hj, hclean j hj, Bool.xor_false]

section

variable {s : State} {m e : Nat → Bool} (hlow : ∀ j, j < s.k → s.regC.getLsbD j = m j)
  (hhigh : ∀ j, j < s.n - s.k → s.regC.getLsbD (s.k + j) = (productBit s.matP s.k m j ^^ e (s.k + j)))

include hlow hhigh

/-- Without an information error the product vanishes, whatever e is below k. -/
theorem mismatchBit_of_clean_info {j : Nat} (hj : j < s.n - s.k) :
    s.mismatchBit (fun i => s.regC.getLsbD i) j = e (s.k + j) := by
  rw [mismatchBit_of_redundancy (hhigh j hj), productBit_zero, Bool.false_xor]
  intro i hi
  rw [hlow i hi, Bool.xor_self]

theorem parityErrors_of_clean_info : s.parityErrors = countOver (s.n - s.k) fun j => e (s.k + j) :=
  countOver_congr _ fun _ hj => mismatchBit_of_clean_info hlow hhigh hj

end

/-- Settles O32 (42_decapsulator.md R151): m cancels in the mismatch, and without an information error the product
vanishes too. -/
theorem syndromeDependsOnlyOnTheError : Obligations.SyndromeDependsOnlyOnTheError := by
  intro s u m e hlegal hkey hlow hhigh hsynd
  have hC : receives s m e := ⟨hlow, hhigh⟩
  obtain ⟨_, hkn, _⟩ := State.legal_bounds hlegal
  obtain rfl := exec_unique (i := .synd) (State.ready_of hlegal (fun _ => hkey) nofun) hsynd
  refine ⟨fun j hj => syndrome_bit_of_receives hlegal hC hj, fun hzero => ?noError, fun hclean => ?cleanInfo⟩
  case noError =>
    have hpe : s.parityErrors = 0 := by
      rw [parityErrors_of_clean_info (received_of_clean_info hlow fun j hj => hzero j (by omega)) hhigh,
        countOver_eq_zero]
      exact fun j hj => hzero (s.k + j) (by omega)
    have hS : s.syndrome = 0 := by rw [← popcount_eq_zero, State.popcount_syndrome hlegal, hpe]
    exact ⟨hS, BitVec.eq_of_toNat_eq ((syndWt_toNat hlegal).trans hpe)⟩
  case cleanInfo =>
    have hlow' := received_of_clean_info hlow hclean
    have hsplit := countOver_add e s.k (s.n - s.k)
    rw [(countOver_eq_zero _ _).2 hclean, Nat.zero_add, Nat.add_sub_cancel' hkn.le] at hsplit
    refine ⟨fun j hj => (syndrome_bit hlegal hj).trans (mismatchBit_of_clean_info hlow' hhigh hj), ?_⟩
    rw [hsplit, ← parityErrors_of_clean_info hlow' hhigh]
    exact syndWt_toNat hlegal

/-! ### Probes (42_decapsulator.md R153) -/

theorem mismatch_xor (s : State) (cand flips : BitVec KMAX) :
    s.mismatch (cand ^^^ flips) = s.mismatch cand ^^^ timesP s.matP flips s.k (s.n - s.k) := by
  rw [State.mismatch, State.mismatch, timesP_xor, BitVec.xor_assoc, BitVec.xor_assoc,
    BitVec.xor_comm s.parityReceived]

/-- Settles O34 (42_decapsulator.md R153): the product is linear, and `unit a` selects row a. -/
theorem probeCountIsRowDistance : Obligations.ProbeCountIsRowDistance := by
  intro s a hlegal ha
  obtain ⟨_, _, hk, _⟩ := s.legal_iff.1 hlegal
  rw [State.probeErr, State.candidate, mismatch_xor, timesP_unit _ _ _ _ ha hk, State.syndrome]

/-! ### The decision of DECODE (42_decapsulator.md R154, R155, R157) -/

/-- a keeps the received part: no probe that ran is strictly below pe. -/
def keepsReceived (s : State) (a : Search) : Prop :=
  (∀ b, b < a.cnt → s.parityErrors ≤ s.probeErrors b) ∧
  (∀ j, j < s.k → a.best.getLsbD j = s.regC.getLsbD j) ∧ a.flip = 0xFF ∧ a.bestErr = s.parityErrors

/-- a keeps a probe: the first with the lowest count among those that ran, strictly below pe. -/
def keepsProbe (s : State) (a : Search) : Prop :=
  a.flip < a.cnt ∧ s.probeErrors a.flip < s.parityErrors ∧
  (∀ b, b < a.flip → s.probeErrors a.flip < s.probeErrors b) ∧
  (∀ b, b < a.cnt → s.probeErrors a.flip ≤ s.probeErrors b) ∧
  (∀ j, j < s.k → a.best.getLsbD j = (s.regC.getLsbD j ^^ decide (j = a.flip))) ∧
  a.bestErr = s.probeErrors a.flip

/-- a is what the bounded search of s answers. -/
structure IsSearchResult (s : State) (a : Search) : Prop where
  cnt_pos : 1 ≤ a.cnt
  cnt_le : a.cnt ≤ min 16 s.k
  nonzero_before_last : ∀ b, b + 1 < a.cnt → s.probeErrors b ≠ 0
  early_iff : a.early = true ↔ s.probeErrors (a.cnt - 1) = 0
  cnt_of_not_early : a.early = false → a.cnt = min 16 s.k
  best : keepsReceived s a ∨ keepsProbe s a

section

variable {s : State} (hlegal : s.legal = true)

include hlegal

theorem accepts_eq_decide : s.accepts = decide (s.parityErrors ≤ s.t) := by
  rw [State.accepts, State.popcount_syndrome hlegal]

theorem decision_of_accept (hpe : s.parityErrors ≤ s.t) : s.decision = s.noProbe := by
  rw [State.decision, accepts_eq_decide hlegal, decide_eq_true hpe, if_pos rfl]

theorem decision_of_search (hpe : s.t < s.parityErrors) : s.decision = s.search (min W s.k) 0 s.noProbe := by
  rw [State.decision, accepts_eq_decide hlegal, decide_eq_false (Nat.not_le.2 hpe), if_neg Bool.false_ne_true]

theorem noProbe_best {j : Nat} (hj : j < s.k) : s.noProbe.best.getLsbD j = s.regC.getLsbD j := by
  rw [State.noProbe, State.received_getLsbD hlegal, decide_eq_true hj, Bool.true_and]

/-- The best of a search that began with the received part, in the terms of the rules. -/
theorem keeps_of_bestOf {a : Search} (hcnt : a.cnt ≤ s.k) (h : a.bestOf s 0 s.noProbe) :
    keepsReceived s a ∨ keepsProbe s a := by
  have hpe : s.noProbe.bestErr = s.parityErrors := State.popcount_syndrome hlegal
  have hprobe (b : Nat) (hb : b < a.cnt) : s.probeErr b = s.probeErrors b := State.probeErr_eq hlegal b (by omega)
  rcases h with ⟨hbest, herr, hflip, hworse⟩ | ⟨_, hflip, hbest, herr, hbetter, hfirst, hlowest⟩
  case inl =>
    refine .inl ⟨fun b hb => ?_, fun j hj => hbest ▸ noProbe_best hlegal hj, hflip, herr.trans hpe⟩
    rw [← hpe, ← hprobe b hb]
    exact hworse b (Nat.zero_le b) hb
  case inr =>
    have herr' : a.bestErr = s.probeErrors a.flip := herr.trans (hprobe _ hflip)
    rw [herr'] at hbetter hfirst hlowest
    refine .inr ⟨hflip, hpe ▸ hbetter, fun b hb => ?_, fun b hb => ?_, fun j hj => ?_, herr'⟩
    · rw [← hprobe b (by omega)]; exact hfirst b (Nat.zero_le b) hb
    · rw [← hprobe b hb]; exact hlowest b (Nat.zero_le b) hb
    · rw [hbest, State.candidate_getLsbD hlegal _ _ (by omega), decide_eq_true hj, Bool.true_and]

theorem decision_isSearchResult (hpe : s.t < s.parityErrors) : IsSearchResult s s.decision := by
  obtain ⟨hk, _⟩ := State.legal_bounds hlegal
  have hW : min W s.k = min 16 s.k := rfl
  obtain ⟨_, hle, hpos, hnonzero, hearly, hlate, hbest⟩ := s.search_spec (min W s.k) 0 s.noProbe rfl rfl
  simp only [← decision_of_search hlegal hpe, hW, Nat.zero_add] at hle hpos hnonzero hearly hlate hbest
  have hprobe (b : Nat) (hb : b < s.decision.cnt) : s.probeErr b = s.probeErrors b :=
    State.probeErr_eq hlegal b (by omega)
  have hcnt : 1 ≤ s.decision.cnt := hpos (by omega)
  exact {
    cnt_pos := hcnt
    cnt_le := hle
    nonzero_before_last := fun b hb => by
      rw [← hprobe b (by omega)]; exact hnonzero b (Nat.zero_le b) hb
    early_iff := by
      rw [← hprobe (s.decision.cnt - 1) (by omega)]
      refine ⟨fun h => (hearly h).2, fun hzero => ?_⟩
      by_contra hfalse
      obtain ⟨hfull, hall⟩ := hlate (Bool.eq_false_iff.2 hfalse)
      exact hall _ (Nat.zero_le _) (by omega) hzero
    cnt_of_not_early := fun h => (hlate h).1
    best := keeps_of_bestOf hlegal (by omega) hbest }

end

/-! ### The fields of DEC_STAT and SEARCH_CNT after DECODE (10_state.md R35, R36) -/

section

variable (s : State)

theorem decode_early : (effect .decode s).decStat.getLsbD 1 = s.decision.early := by
  obtain ⟨hflip, herr, _⟩ := s.decision_bounds
  exact decStatWord_early _ _ hflip (by omega)

theorem decode_reserved : (effect .decode s).decStat.extractLsb' 2 6 = 0 := by
  obtain ⟨hflip, herr, _⟩ := s.decision_bounds
  exact decStatWord_reserved _ _ hflip (by omega)

theorem decode_flip : (effect .decode s).decStat.extractLsb' 8 8 = BitVec.ofNat 8 s.decision.flip := by
  obtain ⟨hflip, herr, _⟩ := s.decision_bounds
  exact decStatWord_flip _ _ hflip (by omega)

theorem decode_flip_toNat : ((effect .decode s).decStat.extractLsb' 8 8).toNat = s.decision.flip := by
  obtain ⟨hflip, _⟩ := s.decision_bounds
  rw [decode_flip, BitVec.toNat_ofNat, Nat.mod_eq_of_lt hflip]

theorem decode_bestErr : ((effect .decode s).decStat.extractLsb' 16 16).toNat = s.decision.bestErr := by
  obtain ⟨hflip, herr, _⟩ := s.decision_bounds
  have hfield : (effect .decode s).decStat.extractLsb' 16 16 = BitVec.ofNat 16 s.decision.bestErr :=
    decStatWord_bestErr _ _ hflip (by omega)
  rw [hfield, BitVec.toNat_ofNat, Nat.mod_eq_of_lt (by omega)]

theorem decode_cnt : (effect .decode s).searchCnt.toNat = s.decision.cnt := by
  obtain ⟨_, _, hcnt, _⟩ := s.decision_bounds
  have hfield : (effect .decode s).searchCnt = BitVec.ofNat 8 s.decision.cnt := rfl
  rw [hfield, BitVec.toNat_ofNat, Nat.mod_eq_of_lt (by omega)]

variable {s} (hlegal : s.legal = true)

include hlegal

theorem decode_path : (effect .decode s).decStat.getLsbD 0 = decide (s.t < s.parityErrors) := by
  obtain ⟨hflip, herr, _⟩ := s.decision_bounds
  have hfield : (effect .decode s).decStat.getLsbD 0 = !s.accepts := decStatWord_path _ _ hflip (by omega)
  rw [hfield, accepts_eq_decide hlegal, ← decide_not]
  exact decide_eq_decide.2 Nat.not_le

/-- Direct accept determines every output (42_decapsulator.md R154, step 4). -/
theorem decode_of_accept (hpe : s.parityErrors ≤ s.t) :
    (∀ j, j < s.k → (effect .decode s).regD.getLsbD j = s.regC.getLsbD j) ∧
    (effect .decode s).decStat.getLsbD 0 = false ∧ (effect .decode s).decStat.getLsbD 1 = false ∧
    (effect .decode s).decStat.extractLsb' 8 8 = 0xFF ∧
    ((effect .decode s).decStat.extractLsb' 16 16).toNat = s.parityErrors ∧ (effect .decode s).searchCnt = 0 := by
  have hdecision := decision_of_accept hlegal hpe
  have hD : (effect .decode s).regD = s.noProbe.best := congrArg Search.best hdecision
  refine ⟨fun j hj => hD ▸ noProbe_best hlegal hj, ?_, ?_, ?_, ?_, ?_⟩
  · rw [decode_path hlegal, decide_eq_false (Nat.not_lt.2 hpe)]
  · rw [decode_early, hdecision]; rfl
  · rw [decode_flip, hdecision]; rfl
  · rw [decode_bestErr, hdecision]; exact State.popcount_syndrome hlegal
  · exact BitVec.eq_of_toNat_eq (by rw [decode_cnt, hdecision]; rfl)

end

/-- Settles O23 (42_decapsulator.md R154, R155, R157): the outputs show the decision, and that is the received part or
the result of a search. -/
theorem decodeAcceptsOrSearches : Obligations.DecodeAcceptsOrSearches := by
  refine ⟨rfl, fun s => ⟨Encapsulator.failsWith_of_illegal nofun, Encapsulator.failsWith_of_mismatch rfl,
    fun hlegal hkey => ?_⟩⟩
  refine ⟨s.syndrome, s.withSyndrome.syndWt, (effect .decode s).regD, (effect .decode s).decStat,
    (effect .decode s).searchCnt, exec_ready (State.ready_of hlegal (fun _ => hkey) nofun),
    fun j hj => syndrome_bit hlegal hj, syndrome_zero_above hlegal, syndWt_toNat hlegal,
    fun j hj => StateRules.decision_best_zero_above hlegal hj, decode_reserved s, decode_of_accept hlegal,
    fun hpe => ?_⟩
  have hsearch := decision_isSearchResult hlegal hpe
  rw [decode_cnt, decode_early, decode_path hlegal, decide_eq_true hpe, decode_flip_toNat, decode_bestErr]
  refine ⟨hsearch.cnt_pos, hsearch.cnt_le, hsearch.nonzero_before_last, rfl, hsearch.early_iff,
    hsearch.cnt_of_not_early, ?_⟩
  rcases hsearch.best with ⟨hworse, hD, hflip, herr⟩ | ⟨hflip, hbetter, hfirst, hlowest, hD, herr⟩
  · exact .inl ⟨hworse, hD, by rw [decode_flip, hflip]; rfl, herr⟩
  · exact .inr ⟨s.decision.flip, hflip, hbetter, hfirst, hlowest, hD, rfl, herr⟩

/-! ### What an accepted word gives (42_decapsulator.md R158, R159, R161) -/

theorem exec_decode {s : State} (hlegal : s.legal = true) (hkey : s.keyMatches = true) :
    exec .decode s = .next (effect .decode s).succeed :=
  exec_ready (State.ready_of hlegal (fun _ => hkey) nofun)

theorem exec_encap {s : State} (hlegal : s.legal = true) (hkey : s.keyMatches = true) (hlive : s.rndValid = true) :
    exec .encap s = .next (effect .encap s).succeed :=
  exec_ready (State.ready_of hlegal (fun _ => hkey) fun _ => hlive)

/-- ENCAP leaves its own M and E in C. -/
theorem encap_receives {s : State} (hlegal : s.legal = true) :
    receives (effect .encap s).succeed (effect .encap s).regM.getLsbD (effect .encap s).regE.getLsbD := by
  obtain ⟨_, hkn, _⟩ := State.legal_bounds hlegal
  obtain ⟨hlow, hhigh, _⟩ :=
    Encapsulator.holdsCiphertext_parts hkn.le (Encapsulator.effect_encap_holdsCiphertext hlegal)
  exact ⟨hlow, hhigh⟩

/-- Settles O35 (42_decapsulator.md R158): pe is the weight of the redundancy error, so DECODE accepts; with t ≤ n - k
ENCAP puts its whole error there. -/
theorem encapThenDecodeRecoversTheMessage : Obligations.EncapThenDecodeRecoversTheMessage := by
  intro s hlegal hkey
  refine ⟨fun m e hlow hhigh hweight => ?received, fun hlive ht => ?encap⟩
  case received =>
    have hpe := parityErrors_of_clean_info hlow hhigh
    obtain ⟨hD, hpath, _⟩ := decode_of_accept hlegal (hpe.trans_le hweight)
    exact ⟨_, exec_decode hlegal hkey, hpath, (syndWt_toNat hlegal).trans hpe, fun j hj => (hD j hj).trans (hlow j hj),
      fun j hj => StateRules.decision_best_zero_above hlegal hj⟩
  case encap =>
    have hlegal' : (effect .encap s).succeed.legal = true := hlegal
    obtain ⟨_, hred, _⟩ := State.drawError_spec hlegal (s.fresh + 1)
    obtain ⟨_, hmzero⟩ := State.drawMessage_spec hlegal s.fresh
    obtain ⟨hlow, hhigh⟩ := encap_receives hlegal
    have hclean := received_of_clean_info hlow (Encapsulator.drawError_info_eq_zero hlegal (s.fresh + 1) ht)
    have hpe : (effect .encap s).succeed.parityErrors ≤ s.t :=
      (parityErrors_of_clean_info hclean hhigh).trans_le (hred.trans_le (min_le_left _ _))
    obtain ⟨hD, _⟩ := decode_of_accept hlegal' hpe
    refine ⟨_, _, exec_encap hlegal hkey hlive, exec_decode hlegal' hkey, BitVec.eq_of_getLsbD_eq fun j _ => ?_⟩
    rcases Nat.lt_or_ge j s.k with hj | hj
    · exact (hD j hj).trans (hclean j hj)
    · exact (StateRules.decision_best_zero_above hlegal' hj).trans (hmzero j hj).symm

/-- A position of the mismatch is 0 when C and the product agree there. -/
theorem mismatchBit_eq_false_iff (s : State) (cand : Nat → Bool) (j : Nat) :
    s.mismatchBit cand j = false ↔ s.regC.getLsbD (s.k + j) = productBit s.matP s.k cand j := by
  rw [State.mismatchBit, eq_comm (b := productBit _ _ _ _)]
  exact bne_eq_false_iff_eq

/-- DEC_STAT of a direct accept with pe = 0: only FLIPIDX is set. -/
theorem decStatWord_accept_zero (best : BitVec KMAX) : decStatWord false ⟨best, 0, 0xFF, 0, false⟩ = 0x0000FF00 := by
  simp only [decStatWord]
  decide

/-- Settles O36 (42_decapsulator.md R159): with t = 0, DECODE accepts exactly when pe = 0. -/
theorem zeroWeightBoundary : Obligations.ZeroWeightBoundary := by
  intro s u hlegal hkey ht hdecode
  obtain rfl := exec_unique (i := .decode) (State.ready_of hlegal (fun _ => hkey) nofun) hdecode
  have hpe_iff : s.parityErrors = 0 ↔ ∀ j, j < s.n - s.k →
      s.regC.getLsbD (s.k + j) = productBit s.matP s.k (fun i => s.regC.getLsbD i) j := by
    simp only [State.parityErrors, countOver_eq_zero, mismatchBit_eq_false_iff]
  refine ⟨fun hword => ?errorFree, fun ⟨j, hj, hne⟩ => ?other⟩
  case errorFree =>
    have hpe := hpe_iff.2 hword
    have haccept : s.parityErrors ≤ s.t := by omega
    obtain ⟨hD, _, _, _, _, hcnt⟩ := decode_of_accept hlegal haccept
    refine ⟨hD, fun j hj => StateRules.decision_best_zero_above hlegal hj,
      BitVec.eq_of_toNat_eq ((syndWt_toNat hlegal).trans hpe), ?_, hcnt⟩
    have hstat : (effect .decode s).decStat = decStatWord (!s.accepts) s.decision := rfl
    rw [State.succeed_decStat, hstat, accepts_eq_decide hlegal, decide_eq_true haccept,
      decision_of_accept hlegal haccept, State.noProbe, State.popcount_syndrome hlegal, hpe]
    exact decStatWord_accept_zero s.received
  case other =>
    have hpe : s.t < s.parityErrors := by
      have : s.parityErrors ≠ 0 := fun h => hne (hpe_iff.1 h j hj)
      omega
    exact ⟨(decode_path hlegal).trans (decide_eq_true hpe),
      (decode_cnt s).symm ▸ (decision_isSearchResult hlegal hpe).cnt_pos⟩

/-- Settles O38 (42_decapsulator.md R161): pe is at most n - k, so DECODE keeps every information error, and with
t > n - k ENCAP makes one. -/
theorem largeWeightNeverSearches : Obligations.LargeWeightNeverSearches := by
  intro s hlegal hkey ht
  have haccept (s' : State) (hn : s'.n - s'.k ≤ s'.t) : s'.parityErrors ≤ s'.t := State.parityErrors_le.trans hn
  obtain ⟨hD, hpath, _, _, _, hcnt⟩ := decode_of_accept hlegal (haccept s ht)
  refine ⟨⟨_, exec_decode hlegal hkey, hpath, hcnt, hD⟩, fun hmore hlive => ?_⟩
  have hlegal' : (effect .encap s).succeed.legal = true := hlegal
  refine ⟨_, _, exec_encap hlegal hkey hlive, exec_decode hlegal' hkey, fun hDM => ?_⟩
  obtain ⟨hD', _⟩ := decode_of_accept hlegal' (haccept (effect .encap s).succeed ht)
  obtain ⟨hlow, _⟩ := encap_receives hlegal
  obtain ⟨hinfo, _⟩ := State.drawError_spec hlegal (s.fresh + 1)
  have hclean (j : Nat) (hj : j < s.k) : (s.drawError (s.fresh + 1)).getLsbD j = false := by
    have hsum := (hlow j hj).symm.trans ((hD' j hj).symm.trans (congrArg (fun d => d.getLsbD j) hDM))
    exact Bool.xor_right_inj.1 (hsum.trans (Bool.xor_false _).symm)
  rw [(countOver_eq_zero _ _).2 hclean] at hinfo
  omega

/-! ### The limits of correction (42_decapsulator.md R160) -/

/-- DECODE leaves the received part in D. -/
def leavesReceived (s : State) : Prop := ∀ j, j < s.k → (effect .decode s).regD.getLsbD j = s.regC.getLsbD j

/-- DECODE leaves in D the received part with bit a flipped. -/
def leavesFlipped (s : State) (a : Nat) : Prop :=
  ∀ j, j < s.k → (effect .decode s).regD.getLsbD j = (s.regC.getLsbD j ^^ decide (j = a))

/-- Probe a is the first with the lowest count of all that may run, strictly below pe. -/
def isBestProbe (s : State) (a : Nat) : Prop :=
  s.probeErrors a < s.parityErrors ∧ (∀ b, b < a → s.probeErrors a < s.probeErrors b) ∧
  ∀ b, b < min 16 s.k → s.probeErrors a ≤ s.probeErrors b

theorem isBestProbe_unique {s : State} {a b : Nat} (ha : a < min 16 s.k) (hb : b < min 16 s.k)
    (hbesta : isBestProbe s a) (hbestb : isBestProbe s b) : a = b := by
  obtain ⟨_, hfirsta, hlowesta⟩ := hbesta
  obtain ⟨_, hfirstb, hlowestb⟩ := hbestb
  rcases Nat.lt_trichotomy a b with hlt | heq | hlt
  · exact absurd (hfirstb a hlt) (Nat.not_lt.2 (hlowesta b hb))
  · exact heq
  · exact absurd (hfirsta b hlt) (Nat.not_lt.2 (hlowestb a ha))

/-- A search that did not run every probe ended at a count of 0. -/
theorem IsSearchResult.zero_of_cnt_lt {s : State} {a : Search} (h : IsSearchResult s a) (hcnt : a.cnt < min 16 s.k) :
    s.probeErrors (a.cnt - 1) = 0 := by
  refine h.early_iff.1 (Bool.not_eq_false _ ▸ fun hlate => ?_)
  have := h.cnt_of_not_early hlate
  omega

/-- The kept probe is the best also among the probes that did not run. -/
theorem IsSearchResult.isBestProbe_flip {s : State} {a : Search} (h : IsSearchResult s a) (hkeeps : keepsProbe s a) :
    a.flip < min 16 s.k ∧ isBestProbe s a.flip := by
  obtain ⟨hflip, hbetter, hfirst, hlowest, _⟩ := hkeeps
  have hpos := h.cnt_pos
  refine ⟨hflip.trans_le h.cnt_le, hbetter, hfirst, fun b hb => ?_⟩
  rcases Nat.lt_or_ge b a.cnt with hran | hskipped
  · exact hlowest b hran
  · have hzero := h.zero_of_cnt_lt (by omega)
    have := hlowest (a.cnt - 1) (by omega)
    omega

/-- A search that keeps the received part has no best probe: one that ran is not below pe, and one that did not ran
behind a count of 0. -/
theorem IsSearchResult.not_isBestProbe {s : State} {a : Search} (h : IsSearchResult s a) (hkeeps : keepsReceived s a)
    {b : Nat} (hb : b < min 16 s.k) : ¬ isBestProbe s b := by
  rintro ⟨hbetter, hfirst, _⟩
  obtain ⟨hworse, _⟩ := hkeeps
  have hpos := h.cnt_pos
  rcases Nat.lt_or_ge b a.cnt with hran | hskipped
  · exact absurd hbetter (Nat.not_lt.2 (hworse b hran))
  · have hzero := h.zero_of_cnt_lt (by omega)
    have := hfirst (a.cnt - 1) (by omega)
    omega

theorem not_leavesFlipped_of_leavesReceived {s : State} {a : Nat} (ha : a < s.k) (h : leavesReceived s) :
    ¬ leavesFlipped s a := by
  intro hflipped
  have hbit := (h a ha).symm.trans (hflipped a ha)
  simp at hbit

section

variable {s : State} (hlegal : s.legal = true)

include hlegal

/-- D is the received part, or it has the best probe's bit flipped. -/
theorem decode_leaves : leavesReceived s ∨
    ∃ a, a < min 16 s.k ∧ s.t < s.parityErrors ∧ isBestProbe s a ∧ leavesFlipped s a := by
  rcases Nat.lt_or_ge s.t s.parityErrors with hpe | hpe
  · have hsearch := decision_isSearchResult hlegal hpe
    rcases hsearch.best with ⟨_, hD, _⟩ | hkeeps
    · exact .inl hD
    · obtain ⟨hflip, hbest⟩ := hsearch.isBestProbe_flip hkeeps
      obtain ⟨_, _, _, _, hD, _⟩ := hkeeps
      exact .inr ⟨_, hflip, hpe, hbest, hD⟩
  · obtain ⟨hD, _⟩ := decode_of_accept hlegal hpe
    exact .inl hD

theorem leavesFlipped_iff {a : Nat} (ha : a < s.k) :
    leavesFlipped s a ↔ a < min 16 s.k ∧ s.t < s.parityErrors ∧ isBestProbe s a := by
  constructor
  case mp =>
    intro hflipped
    rcases decode_leaves hlegal with hkept | ⟨b, hb, hpe, hbest, hflipped'⟩
    · exact absurd hflipped (not_leavesFlipped_of_leavesReceived ha hkept)
    · have hbit := (hflipped a ha).symm.trans (hflipped' a ha)
      obtain rfl : a = b := by simpa using Bool.xor_right_inj.1 hbit
      exact ⟨hb, hpe, hbest⟩
  case mpr =>
    rintro ⟨ha16, hpe, hbest⟩
    have hsearch := decision_isSearchResult hlegal hpe
    rcases hsearch.best with hkeeps | hkeeps
    · exact absurd hbest (hsearch.not_isBestProbe hkeeps ha16)
    · obtain ⟨hflip, hbest'⟩ := hsearch.isBestProbe_flip hkeeps
      obtain ⟨_, _, _, _, hD, _⟩ := hkeeps
      rwa [isBestProbe_unique ha16 hflip hbest hbest']

/-- D differs from the received part in the flipped bit only. -/
theorem decode_changes_one_bit : ∃ a, ∀ j, j < s.k →
    (effect .decode s).regD.getLsbD j ≠ s.regC.getLsbD j → j = a ∧ a < min 16 s.k := by
  rcases decode_leaves hlegal with hkept | ⟨a, ha, _, _, hflipped⟩
  · exact ⟨0, fun j hj hne => absurd (hkept j hj) hne⟩
  · refine ⟨a, fun j hj hne => ⟨?_, ha⟩⟩
    by_contra hja
    rw [hflipped j hj, decide_eq_false hja, Bool.xor_false] at hne
    exact hne rfl

end

theorem countOver_single_le (a b : Nat) : countOver b (fun j => decide (j = a)) ≤ 1 := by
  induction b with
  | zero => exact Nat.zero_le 1
  | succ b ih =>
    rcases eq_or_ne b a with rfl | hne
    · have hbelow : countOver b (fun j => decide (j = b)) = 0 :=
        (countOver_eq_zero _ _).2 fun j hj => decide_eq_false (Nat.ne_of_lt hj)
      rw [countOver, hbelow, decide_eq_true rfl]; rfl
    · rw [countOver, decide_eq_false hne]
      exact ih

section

variable {s : State} {m e : Nat → Bool} (hC : receives s m e)

include hC

/-- Recovering m means flipping exactly the bits of the information error. -/
theorem eq_message_iff (d : Nat → Bool) :
    (∀ j, j < s.k → d j = m j) ↔ ∀ j, j < s.k → d j = (s.regC.getLsbD j ^^ e j) := by
  obtain ⟨hlow, _⟩ := hC
  refine forall₂_congr fun j hj => ?_
  rw [hlow j hj, Bool.xor_assoc, Bool.xor_self, Bool.xor_false]

theorem recovers_iff_leavesFlipped {a : Nat} (he : ∀ j, j < s.k → e j = decide (j = a)) :
    (∀ j, j < s.k → (effect .decode s).regD.getLsbD j = m j) ↔ leavesFlipped s a := by
  rw [eq_message_iff hC fun j => (effect .decode s).regD.getLsbD j]
  exact forall₂_congr fun j hj => by rw [he j hj]

/-- DECODE flips at most one bit, so it corrects at most one information error. -/
theorem info_weight_le_one_of_recovers (hlegal : s.legal = true)
    (hD : ∀ j, j < s.k → (effect .decode s).regD.getLsbD j = m j) : countOver s.k e ≤ 1 := by
  rw [eq_message_iff hC fun j => (effect .decode s).regD.getLsbD j] at hD
  rcases decode_leaves hlegal with hkept | ⟨a, _, _, _, hflipped⟩
  · have hzero (j : Nat) (hj : j < s.k) : e j = false := by
      have hbit := (hkept j hj).symm.trans (hD j hj)
      exact (Bool.xor_right_inj.1 ((Bool.xor_false _).trans hbit)).symm
    rw [(countOver_eq_zero _ _).2 hzero]
    exact Nat.zero_le 1
  · have hsingle (j : Nat) (hj : j < s.k) : e j = decide (j = a) :=
      Bool.xor_right_inj.1 ((hD j hj).symm.trans (hflipped j hj))
    rw [countOver_congr _ hsingle]
    exact countOver_single_le a s.k

section

variable {a : Nat} (ha : a < s.k) (he : ∀ j, j < s.k → e j = decide (j = a))
  (hclean : ∀ j, j < s.n - s.k → e (s.k + j) = false)

include ha he hclean

/-- With the one error at information position a, a mismatch is a row of P, or a sum of two. -/
theorem mismatchBit_of_single_error (flips : Nat → Bool) {j : Nat} (hj : j < s.n - s.k) :
    s.mismatchBit (fun i => s.regC.getLsbD i ^^ flips i) j = (entry s.matP a j ^^ productBit s.matP s.k flips j) := by
  rw [mismatchBit_of_receives hC _ hj, hclean j hj, Bool.xor_false, productBit_xor,
    productBit_congr s.k j he fun _ _ => rfl, productBit_unit _ _ _ _ ha]

theorem parityErrors_of_single_error : s.parityErrors = countOver (s.n - s.k) fun j => entry s.matP a j := by
  refine countOver_congr _ fun j hj => ?_
  have hmismatch := mismatchBit_of_single_error hC ha he hclean (fun _ => false) hj
  rw [productBit_zero _ _ _ fun _ _ => rfl] at hmismatch
  simpa only [Bool.xor_false] using hmismatch

theorem probeErrors_of_single_error {b : Nat} (hb : b < s.k) :
    s.probeErrors b = countOver (s.n - s.k) fun j => entry s.matP b j ^^ entry s.matP a j :=
  countOver_congr _ fun j hj => by
    rw [mismatchBit_of_single_error hC ha he hclean _ hj, productBit_unit _ _ _ _ hb, Bool.xor_comm]

theorem probeErrors_single_error_self : s.probeErrors a = 0 := by
  rw [probeErrors_of_single_error hC ha he hclean ha, countOver_eq_zero]
  exact fun j _ => Bool.xor_self _

theorem probeErrors_pos_iff {b : Nat} (hb : b < s.k) :
    0 < s.probeErrors b ↔ ∃ j, j < s.n - s.k ∧ entry s.matP b j ≠ entry s.matP a j := by
  rw [Nat.pos_iff_ne_zero, ne_eq, probeErrors_of_single_error hC ha he hclean hb, countOver_eq_zero]
  simp only [not_forall, exists_prop, bne_eq_false_iff_eq, ne_eq]

/-- Probe a has count 0, so it is kept when the search runs and no earlier probe has count 0 too. -/
theorem leavesFlipped_iff_rows (hlegal : s.legal = true) (ha16 : a < min 16 s.k) :
    leavesFlipped s a ↔ s.t < countOver (s.n - s.k) (fun j => entry s.matP a j) ∧
      ∀ b, b < a → ∃ j, j < s.n - s.k ∧ entry s.matP b j ≠ entry s.matP a j := by
  have hzero := probeErrors_single_error_self hC ha he hclean
  rw [leavesFlipped_iff hlegal ha, ← parityErrors_of_single_error hC ha he hclean, isBestProbe, hzero]
  have hrows (b : Nat) (hb : b < a) := probeErrors_pos_iff hC ha he hclean (b := b) (by omega)
  constructor
  · rintro ⟨_, hpe, _, hfirst, _⟩
    exact ⟨hpe, fun b hb => (hrows b hb).1 (hfirst b hb)⟩
  · rintro ⟨hpe, hdistinct⟩
    exact ⟨ha16, hpe, Nat.zero_lt_of_lt hpe, fun b hb => (hrows b hb).2 (hdistinct b hb), fun _ _ => Nat.zero_le _⟩

end

end

/-- Settles O37 (42_decapsulator.md R160): D = m asks that the bits DECODE flipped are the information error, and
it flips the best probe's bit or none. -/
theorem limitsOfCorrection : Obligations.LimitsOfCorrection := by
  intro s u m e hlegal hkey hlow hhigh hdecode
  have hC : receives s m e := ⟨hlow, hhigh⟩
  obtain rfl := exec_unique (i := .decode) (State.ready_of hlegal (fun _ => hkey) nofun) hdecode
  refine ⟨fun a b ha hb hnea hneb => ?oneBit, fun hweight => ?twoErrors, fun a ha he => ?oneError⟩
  case oneBit =>
    obtain ⟨c, hchange⟩ := decode_changes_one_bit hlegal
    obtain ⟨rfl, hac⟩ := hchange a ha hnea
    obtain ⟨rfl, _⟩ := hchange b hb hneb
    exact ⟨rfl, hac⟩
  case twoErrors =>
    by_contra! hD
    have := info_weight_le_one_of_recovers hC hlegal hD
    omega
  case oneError =>
    have hrecovers := recovers_iff_leavesFlipped hC he
    have hflipped := leavesFlipped_iff hlegal ha
    refine ⟨fun houtside => ?_, fun _ hD => ?_, fun ha16 hclean => ?_⟩
    · by_contra! hD
      obtain ⟨ha16, _⟩ := hflipped.1 (hrecovers.1 hD)
      omega
    · obtain ⟨_, hpe, hbest⟩ := hflipped.1 (hrecovers.1 hD)
      exact ⟨hpe, hbest⟩
    · exact ⟨probeErrors_single_error_self hC ha he hclean,
        fun b hb => probeErrors_of_single_error hC ha he hclean (by omega),
        hrecovers.trans (leavesFlipped_iff_rows hC ha he hclean hlegal ha16)⟩

/-! ### Other corner cases (42_decapsulator.md R162) -/

/-- s with the registers and the counter of r that DECODE does not read. -/
def withUnread (s r : State) : State := { s with regM := r.regM, regE := r.regE, fresh := r.fresh }

theorem decision_withUnread (s r : State) : (withUnread s r).decision = s.decision := by
  have hsearch := StateRules.search_congr (s := withUnread s r) (s' := s) fun _ _ => rfl
  rw [State.decision, State.decision, hsearch]
  rfl

theorem decode_withUnread (s r : State) :
    (effect .decode (withUnread s r)).regD = (effect .decode s).regD ∧
    (effect .decode (withUnread s r)).decStat = (effect .decode s).decStat ∧
    (effect .decode (withUnread s r)).searchCnt = (effect .decode s).searchCnt := by
  have hdecision := decision_withUnread s r
  exact ⟨congrArg Search.best hdecision, congrArg (decStatWord (!s.accepts)) hdecision,
    congrArg (fun a : Search => BitVec.ofNat 8 a.cnt) hdecision⟩

/-- Settles O39 (42_decapsulator.md R162): SYND and DECODE write one syndrome; the results are those of a state that
agrees on all that a command may read. -/
theorem decodeCornerCases : Obligations.DecodeCornerCases := by
  intro s u hlegal hkey hdecode
  obtain rfl := exec_unique (i := .decode) (State.ready_of hlegal (fun _ => hkey) nofun) hdecode
  have hsynd : exec .synd s = .next (effect .synd s).succeed :=
    exec_ready (State.ready_of hlegal (fun _ => hkey) nofun)
  obtain ⟨_, _, hcnt16, hcntk⟩ := s.decision_bounds
  refine ⟨rfl, rfl, ⟨_, hsynd, rfl, rfl⟩, fun j hj => StateRules.decision_best_zero_above hlegal hj,
    (decode_cnt s).trans_le (le_min hcnt16 hcntk), fun s' u' hC hP hN hK hT hkN hkK hdecode' => ?_⟩
  have hlegal' : s'.legal = true := by
    rw [State.legal, State.n, State.k, State.t, hN, hK, hT]; exact hlegal
  have hkey' : s'.keyMatches = true := by
    rw [State.keyMatches, hN, hK, hkN, hkK]; exact hkey
  obtain rfl := exec_unique (i := .decode) (State.ready_of hlegal' (fun _ => hkey') nofun) hdecode'
  have hagree : s.agreesOnInputs (withUnread s' s) :=
    ⟨hN.symm, hK.symm, hT.symm, hkN.symm, hkK.symm, rfl, fun _ _ => rfl, fun _ _ => rfl,
      fun j _ => congrArg (fun c => c.getLsbD j) hC.symm, fun i j _ _ => congrArg (fun p => entry p i j) hP.symm⟩
  obtain ⟨hS, hwt, _⟩ := StateRules.effect_syndrome_agrees (i := .decode) hlegal hagree (.inr rfl)
  obtain ⟨hD, hstat, hcnt, _⟩ := StateRules.effect_decision_agrees hlegal hagree
  obtain ⟨hD', hstat', hcnt'⟩ := decode_withUnread s' s
  exact ⟨hS.symm, hwt.symm, (hD.trans hD').symm, (hstat.trans hstat').symm, (hcnt.trans hcnt').symm⟩

end Sys2Proof.Proofs.Decapsulator

namespace Sys2Proof.Proofs.Control

open Sys2Proof.Machine

/-! ### NOP (43_control.md R170) -/

theorem encode_nop : encode .nop = 0x00000000#32 := rfl

/-- NOP is ready in every state, and its effect is nothing. -/
theorem exec_nop (s : State) : exec .nop s = .next s.succeed :=
  exec_ready (.inl rfl)

/-- NOP in flight at the engine's turn: no hypothesis on the parameter set, the key or the random source. -/
theorem step_nop {s : State} {rest : List Input} (hnext : s.engineNext rest) (hbusy : s.status.busy = true)
    (hword : s.cmdIf = encode .nop) : step s = .next ({ s with inputs := rest } : State).succeed := by
  have hdecode : decodeWord s.cmdIf = .instr .nop := by rw [hword, Encoding.decodeWord_encode]
  exact (StateRules.engineStepRunsTheDecodedCommand s rest .nop rfl hnext hbusy hdecode).trans (exec_nop _)

/-- The completion of a NOP in flight reports opcode 0x00 in LASTOP (10_state.md R32). -/
theorem succeed_lastop_of_nop {s : State} (hword : s.cmdIf = encode .nop) : s.succeed.status.lastop = 0 := by
  rw [State.succeed_status, Status.succeeded_lastop, hword]
  exact Encoding.opcOf_encode .nop

/-- Settles O14 (43_control.md R170): the completion of NOP is `succeed`; its issue is that of any word (R43), and the
engine's turn finds it latched in CMD_IF. -/
theorem nopOnlyCompletes : Obligations.NopOnlyCompletes := by
  refine ⟨encode_nop, exec_nop, fun s rest hwr => ?dropped, fun s hwr hidle => ?completes⟩
  case dropped =>
    obtain ⟨_, hdrop⟩ := StateRules.issueLatchesOrIsDropped s 0 rest hwr
    exact hdrop
  case completes =>
    obtain ⟨hissue, _⟩ := StateRules.issueLatchesOrIsDropped s 0 [.engine] hwr
    exact ⟨_, _, hissue hidle, step_nop (.inl rfl) rfl encode_nop.symm,
      rfl, rfl, rfl, rfl, succeed_lastop_of_nop encode_nop.symm, State.succeed_irq _⟩

end Sys2Proof.Proofs.Control

namespace Sys2Proof.Proofs.Exceptions

open Sys2Proof.Machine

/-! ### What a step can do to STATUS (10_state.md R26 to R32) -/

/-- The block raises neither of the two codes reserved for the host's serialiser (60_exceptions.md R183). -/
def isRaised (e : CmdError) : Prop := e ≠ .malformedKey ∧ e ≠ .malformedCiphertext

/-- Every change of STATUS from f in one step, by the operation that makes it. -/
inductive StatusChange (f : Status) : Status → Prop
  | kept : StatusChange f f
  | reset : StatusChange f Status.reset
  | cleared (v : Word) : StatusChange f (f.clearWritten v)
  | overrun : StatusChange f f.overrun
  | issued : StatusChange f f.issued
  | succeeded (v : Word) : StatusChange f (f.succeeded v)
  | failed (v : Word) {e : CmdError} (he : isRaised e) : StatusChange f (f.failed v e)

theorem whenIdle_statusChange {s s' : State} (h : StatusChange s.status s'.status) :
    StatusChange s.status (s.whenIdle s').status := by
  rcases s.whenIdle_cases s' with ⟨_, hstored⟩ | ⟨_, hdropped⟩
  · rwa [hstored]
  · rw [hdropped]; exact .overrun

theorem writeCtrl_statusChange (s : State) (v : Word) : StatusChange s.status (writeCtrl s v).status := by
  unfold writeCtrl
  split
  · exact .reset
  · exact .kept

theorem writeEffect_statusChange (s : State) (r : Reg) (v : Word) :
    StatusChange s.status (writeEffect s r v).status := by
  cases r with
  | ctrl => exact writeCtrl_statusChange s v
  | status => exact .cleared v
  | cmd => exact whenIdle_statusChange .issued
  | paramN | paramK | paramT | keyN | keyK | m | e | c | p => exact whenIdle_statusChange .kept
  | id | cap | syndWt | decStat | searchCnt | s | d | reserved => exact .kept

theorem transact_statusChange (s : State) (x : Txn) : StatusChange s.status (transact s x).status := by
  rcases transact_cases s x with ⟨_, h⟩ | ⟨_, _, h⟩ | ⟨_, hread, _⟩
  · rw [h]; exact .kept
  · rw [h]; exact writeEffect_statusChange s _ _
  · obtain ⟨_, _, hframe⟩ := Memory.transact_read_frame s hread
    rw [hframe]; exact .kept

theorem isRaised_of_failedCheck {s : State} {u : Bool} {e : CmdError} (h : s.failedCheck u = some e) : isRaised e := by
  rcases State.failedCheck_codes h with rfl | rfl <;> exact ⟨nofun, nofun⟩

theorem exec_statusChange {i : Instr} {s t : State} (h : exec i s = .next t) : StatusChange s.status t.status := by
  rcases exec_cases h with ⟨_, e, hcheck, rfl⟩ | ⟨_, rfl⟩ | ⟨_, _, _, rfl⟩
  · exact .failed _ (isRaised_of_failedCheck hcheck)
  · rw [State.succeed_status, effect_status]; exact .succeeded _
  · exact .kept

theorem step_statusChange {s t : State} (h : step s = .next t) : StatusChange s.status t.status := by
  rcases step_cases h with ⟨rest, _, _, rfl⟩ | ⟨rest, i, _, _, _, hexec⟩ | ⟨rest, why, _, _, _, rfl⟩ |
    ⟨rest, x, _, rfl⟩ | ⟨rest, _, rfl⟩ | ⟨rest, v, _, rfl⟩
  case inl => exact .kept
  case inr.inl => exact exec_statusChange (s := { s with inputs := rest }) hexec
  case inr.inr.inl => exact .failed _ ⟨nofun, nofun⟩
  case inr.inr.inr.inl => exact transact_statusChange { s with inputs := rest } x
  case inr.inr.inr.inr.inl => exact .reset
  case inr.inr.inr.inr.inr => exact .kept

/-! ### STATUS stays coherent (60_exceptions.md R181, R183, R188, R191) -/

/-- `State.statusCoherent`, which reads STATUS alone, as a property of STATUS. -/
def coherent (f : Status) : Prop :=
  (f.done = true → f.busy = false) ∧
  (f.err = true → f.busy = false ∧ f.errcode ≠ 0) ∧
  (f.errcode = 0 ∨ f.errcode = 1 ∨ f.errcode = 3 ∨ f.errcode = 5)

theorem statusCoherent_iff (s : State) : s.statusCoherent ↔ coherent s.status := Iff.rfl

theorem code_of_isRaised {e : CmdError} (h : isRaised e) : e.code = 1 ∨ e.code = 3 ∨ e.code = 5 := by
  obtain ⟨hkey, hciphertext⟩ := h
  cases e with
  | invalidParameters => exact .inl rfl
  | invalidKey => exact .inr (.inl rfl)
  | illegalCommand => exact .inr (.inr rfl)
  | malformedKey => exact absurd rfl hkey
  | malformedCiphertext => exact absurd rfl hciphertext

/-- DONE and ERR are set only as BUSY falls and are cleared as BUSY rises; ERR is set together with a raised code, and
that code goes only as ERR is cleared. -/
theorem coherent_of_statusChange {f g : Status} (h : StatusChange f g) (hf : coherent f) : coherent g := by
  obtain ⟨hdone, herr, hcode⟩ := hf
  cases h with
  | kept | overrun => exact ⟨hdone, herr, hcode⟩
  | reset => exact StateRules.resetIsStatusCoherent
  | cleared v =>
    refine ⟨fun h => hdone ?_, fun h => herr ?_, hcode⟩
    · rw [Status.clearWritten_done, Bool.and_eq_true] at h; exact h.1
    · rw [Status.clearWritten_err, Bool.and_eq_true] at h; exact h.1
  | issued => exact ⟨nofun, nofun, hcode⟩
  | succeeded v => exact ⟨fun _ => rfl, nofun, .inl rfl⟩
  | failed v he => exact ⟨fun _ => rfl, fun _ => ⟨rfl, StateRules.code_ne_zero _⟩, .inr (code_of_isRaised he)⟩

/-- Settles O57 (60_exceptions.md R181, R183, R188, R191): every change of STATUS keeps it coherent. -/
theorem stepKeepsStatusCoherent : Obligations.StepKeepsStatusCoherent := by
  intro s t hs hstep
  rw [statusCoherent_iff] at hs ⊢
  exact coherent_of_statusChange (step_statusChange hstep) hs

/-! ### The checks at completion (60_exceptions.md R184, R185) -/

theorem keyMatches_eq_false_iff (s : State) :
    s.keyMatches = false ↔ s.keyN ≠ s.paramN ∨ s.keyK ≠ s.paramK := by
  rw [← Bool.not_eq_true, State.keyMatches_iff, not_and_or]

/-- A success reports the command word that the effect left in CMD_IF. -/
theorem effect_succeed_status (i : Instr) (s : State) : (effect i s).succeed.status = s.okStatus := by
  rw [State.succeed_status, effect_status, effect_cmdIf]; rfl

/-- A command whose word stands in CMD_IF runs at the engine's turn. -/
theorem step_of_encode {s : State} {rest : List Input} {i : Instr} (hnext : s.engineNext rest)
    (hbusy : s.status.busy = true) (hword : s.cmdIf = encode i) : step s = exec i { s with inputs := rest } := by
  rw [step_engine hnext]
  exact engineTurn_instr hbusy ((Encoding.decodeWord_eq_instr_iff_eq_encode _ i).2 hword)

/-- Settles O11 (60_exceptions.md R184): the word is decoded first, and `failedCheck` has the order of the rest. -/
theorem checksRunInOrder : Obligations.ChecksRunInOrder := by
  intro s rest hnext hbusy
  refine ⟨fun hinvalid => ?illegal, fun hnop => Control.step_nop hnext hbusy hnop, fun i hi hword => ?command⟩
  case illegal =>
    obtain ⟨_, hstep⟩ := (Encoding.invalidWordFailsAsIllegalCommand s.cmdIf).2 hinvalid
    exact hstep s rest hnext hbusy rfl
  case command =>
    rw [step_of_encode hnext hbusy hword]
    refine ⟨fun hillegal => ?parameters, fun hlegal huses hmismatch => ?key, fun hlegal hkey hlive => ?passed⟩
    case parameters => exact Encapsulator.failsWith_of_illegal (s := { s with inputs := rest }) hi hillegal
    case key =>
      exact Encapsulator.failsWith_of_mismatch (s := { s with inputs := rest }) huses hlegal
        ((keyMatches_eq_false_iff s).2 hmismatch)
    case passed =>
      have hready : ({ s with inputs := rest } : State).ready i :=
        State.ready_of hlegal (fun huses => (State.keyMatches_iff s).2 (hkey huses)) hlive
      exact ⟨_, exec_ready hready, effect_succeed_status i _⟩

/-- LEGAL asks for k ≥ 1, so the KEY_K that reset leaves is no PARAM_K (60_exceptions.md R185). -/
theorem paramK_ne_zero {s : State} (hlegal : s.legal = true) : s.paramK ≠ 0 := by
  obtain ⟨hk, _⟩ := State.legal_bounds hlegal
  intro hzero
  rw [State.k, hzero] at hk
  exact absurd hk (by decide)

/-- Settles O12 (60_exceptions.md R185): `keyMatches` is the whole check, and it reads the dimensions only. -/
theorem keyCheckComparesDimensionsOnly : Obligations.KeyCheckComparesDimensionsOnly := by
  refine ⟨⟨rfl, rfl⟩, fun s i huses hlegal => ?_⟩
  have hfails (hmismatch : s.keyN ≠ s.paramN ∨ s.keyK ≠ s.paramK) : failsWith i s 3 :=
    Encapsulator.failsWith_of_mismatch huses hlegal ((keyMatches_eq_false_iff s).2 hmismatch)
  refine ⟨hfails, fun hn hk hlive p => ?anyKey, fun _ hk => hfails (.inr ?resetKey)⟩
  case anyKey =>
    have hready : ({ s with matP := p } : State).ready i :=
      State.ready_of hlegal (fun _ => (State.keyMatches_iff s).2 ⟨hn, hk⟩) hlive
    exact ⟨_, exec_ready hready, effect_succeed_status i _⟩
  case resetKey => rw [hk]; exact (paramK_ne_zero hlegal).symm

/-- Settles O40 (60_exceptions.md R193, 42_decapsulator.md R156): once its checks pass DECODE has no other way to end
than `succeed`, whatever decision it took. -/
theorem wrongDecodeIsNoError : Obligations.WrongDecodeIsNoError := by
  intro s hlegal hkey
  refine ⟨_, Decapsulator.exec_decode hlegal hkey, rfl, rfl, rfl, ?_⟩
  rw [State.succeed_irq, effect_ie]

/-! ### A transaction in the completing cycle (60_exceptions.md R192) -/

/-- No input stops the block (70_reset_and_hazards.md R229). -/
theorem step_next (s : State) : ∃ t, step s = .next t := by
  have hengine (u : State) : ∃ t, engineTurn u = .next t := by
    cases hbusy : u.status.busy with
    | false => exact ⟨u, engineTurn_idle hbusy⟩
    | true =>
      cases hword : u.inFlight with
      | instr i => rw [engineTurn_instr hbusy hword]; exact exec_next i u
      | illegal why => exact ⟨_, engineTurn_illegal hbusy hword⟩
  cases hinputs : s.inputs with
  | nil => rw [step_engine (.inr ⟨hinputs, rfl⟩)]; exact hengine _
  | cons input rest =>
    cases input with
    | engine => rw [step_engine (.inl hinputs)]; exact hengine _
    | bus x => exact ⟨_, step_bus hinputs⟩
    | hwReset => exact ⟨_, step_hwReset hinputs⟩
    | rnd valid => exact ⟨_, step_rnd hinputs⟩

/-- With a live source, the step at the engine's turn is the completion of the command in flight. -/
theorem step_isCompletionOf {u t : State} {rest : List Input} (hstep : step u = .next t)
    (hnext : u.engineNext rest) (hbusy : u.status.busy = true) (hlive : u.rndValid = true) :
    StateRules.isCompletionOf { u with inputs := rest } t := by
  obtain ⟨t', ht', hcompletion⟩ := StateRules.engineTurn_isCompletionOf (s := { u with inputs := rest }) hbusy hlive
  rw [step_engine hnext, ht'] at hstep
  cases hstep
  exact hcompletion

/-- A write to CMD or to a data register while a command is in flight only sets OVR (10_state.md R43, R47). -/
theorem step_wr_dropped {s : State} {off : Nat} {v : Word} {rest : List Input} (hwr : s.inputs = wr off v :: rest)
    (hoff : off = 0x01C ∨ dataOffset off) (hbusy : s.status.busy = true) :
    step s = .next { s with
      inputs := rest, resp := some .okWrite, status := { s.status with ovr := true } } := by
  rcases hoff with rfl | hdata
  · obtain ⟨_, hdrop⟩ := StateRules.issueLatchesOrIsDropped s v rest hwr
    exact hdrop hbusy
  · obtain ⟨hdrop, _⟩ := StateRules.busyDataWriteIsDropped s off v rest hwr
    exact hdrop hdata hbusy

theorem step_wr_status {s : State} {v : Word} {rest : List Input} (hwr : s.inputs = wr 0x00C v :: rest) :
    step s = .next { s with inputs := rest, resp := some .okWrite, status := s.status.clearWritten v } :=
  StateRules.step_wr_of_effect hwr rfl (by decide) rfl

/-- A soft reset takes effect in any state (10_state.md R23, 70_reset_and_hazards.md R211). -/
theorem step_softReset {s : State} {v : Word} {rest : List Input} (hwr : s.inputs = wr 0x008 v :: rest)
    (hsrst : v.getLsbD 1 = true) :
    step s = .next { s.resetBlock with inputs := rest, resp := some .okWrite } :=
  StateRules.step_wr_of_effect hwr rfl (by decide) (if_pos hsrst)

/-- Settles O54 (60_exceptions.md R192): each transaction leaves a state in which the engine's turn finds the command
still in flight, but for the soft reset, which leaves an idle block. -/
theorem hostFirstThenCompletion : Obligations.HostFirstThenCompletion := by
  intro s x rest hinputs hbusy hlive
  obtain ⟨u, hu⟩ := step_next s
  obtain ⟨t, ht⟩ := step_next u
  refine ⟨u, t, hu, ht, ?dropped, ?acknowledged, ?read, ?softReset⟩
  case dropped =>
    rintro ⟨off, v, hoff, hx⟩
    cases hu.symm.trans (step_wr_dropped (hx ▸ hinputs) hoff hbusy)
    obtain ⟨hidle, _, hlastop, hovr, _⟩ := step_isCompletionOf ht (.inl rfl) hbusy hlive
    exact ⟨rfl, hovr, hidle, hlastop⟩
  case acknowledged =>
    rintro ⟨v, hx⟩
    cases hu.symm.trans (step_wr_status (hx ▸ hinputs))
    obtain ⟨_, hdone, _⟩ := step_isCompletionOf ht (.inl rfl) hbusy hlive
    exact hdone
  case read =>
    intro hread
    obtain ⟨resp, fresh, hframe⟩ := Memory.transact_read_frame { s with inputs := .engine :: rest } hread
    rw [step_bus hinputs, hframe] at hu
    cases hu
    obtain ⟨_, hdone, _⟩ := step_isCompletionOf ht (.inl rfl) hbusy hlive
    exact ⟨rfl, hdone⟩
  case softReset =>
    rintro ⟨v, hsrst, hx⟩
    cases hu.symm.trans (step_softReset (hx ▸ hinputs) hsrst)
    cases ht.symm.trans (StateRules.idleEngineDoesNothing _ rest (.inl rfl) rfl)
    rw [← hlive]; rfl

/-! ### The interrupt output (60_exceptions.md R190) -/

/-- Settles O53 (60_exceptions.md R190): an issue clears DONE, a dropped one sets only OVR, and a write to STATUS clears
DONE by its bit 1. -/
theorem irqIsEnableAndDone : Obligations.IrqIsEnableAndDone := by
  refine ⟨fun _ => rfl, rfl, fun s t v rest hwr hstep => ?issue, fun s t v rest hwr hstep => ?acknowledge⟩
  case issue =>
    obtain ⟨hissue, hdrop⟩ := StateRules.issueLatchesOrIsDropped s v rest hwr
    cases hbusy : s.status.busy with
    | false =>
      cases hstep.symm.trans (hissue hbusy)
      rw [State.irq, Bool.and_false, Bool.and_false]
    | true =>
      cases hstep.symm.trans (hdrop hbusy)
      rw [Bool.and_true]; rfl
  case acknowledge =>
    cases hstep.symm.trans (step_wr_status hwr)
    rw [State.irq, State.irq, Status.clearWritten_done, Bool.and_assoc]

end Sys2Proof.Proofs.Exceptions

namespace Sys2Proof.Proofs.Reset

open Sys2Proof.Machine Sys2Proof.Config

/-! ### No state stops the block (70_reset_and_hazards.md R229) -/

/-- Settles O7 (70_reset_and_hazards.md R229): `step_next` goes through the inputs, and at the engine's turn through
the words that may be in flight. -/
theorem everyStepHasANextState : Obligations.EveryStepHasANextState := Exceptions.step_next

/-! ### Writes to CTRL (10_state.md R23, 70_reset_and_hazards.md R211) -/

theorem writeCtrl_of_srst_clear {v : Word} (hsrst : v.getLsbD 1 = false) (s : State) :
    writeCtrl s v = { s with ie := v.getLsbD 0 } := by
  rw [writeCtrl, hsrst]; rfl

/-- Settles O48 (10_state.md R23, 70_reset_and_hazards.md R211): CTRL stands at 0x008, its write is not guarded by
`whenIdle`, and the soft reset is `resetBlock`. -/
theorem controlWriteStoresIeOrResets : Obligations.ControlWriteStoresIeOrResets := by
  intro s v rest hwr
  refine ⟨fun hclear => ?store, fun hsrst => ?reset⟩
  case store =>
    exact StateRules.step_wr_of_effect hwr rfl (by decide) (writeCtrl_of_srst_clear hclear { s with inputs := rest })
  case reset =>
    rw [Exceptions.step_softReset hwr hsrst]; rfl

/-! ### Hardware reset (70_reset_and_hazards.md R210, 10_state.md R20) -/

/-- The store that a reset leaves has no entry set, inside its dimensions or outside them. -/
theorem entry_resetBlock (s : State) (i j : Nat) : entry s.resetBlock.matP i j = false := by
  have hrow : row s.resetBlock.matP i = 0 := by
    rw [State.resetBlock_matP, row, Vector.getElem?_replicate]
    split <;> rfl
  rw [entry, hrow]; exact BitVec.getLsbD_zero

/-- Settles O49 (70_reset_and_hazards.md R210, 10_state.md R20): a hardware reset is `resetBlock`, whose registers are
those of the reset state. -/
theorem hardwareResetClearsEverything : Obligations.HardwareResetClearsEverything := by
  intro s rest hreset
  have hstatus : Status.reset.word = 0 := StateRules.statusLayoutAndClearing.1
  exact ⟨_, step_hwReset hreset, rfl, hstatus, rfl, rfl, rfl, rfl, rfl, rfl, rfl, rfl, rfl, rfl, rfl, rfl, rfl, rfl,
    entry_resetBlock _, rfl, rfl, rfl⟩

/-! ### Commands and reads right after reset (70_reset_and_hazards.md R212) -/

/-- LEGAL asks for k ≥ 1, and reset leaves PARAM_K at 0. -/
theorem issue_reset_illegal (v : Word) : (State.reset.issue v).legal = false := by
  rw [Bool.eq_false_iff]
  intro hlegal
  exact Exceptions.paramK_ne_zero hlegal rfl

/-- A state whose KEY_K is still the 0 of reset matches no legal parameter set. -/
theorem keyMatches_of_keyK_zero {s : State} (hlegal : s.legal = true) (hzero : s.keyK = 0) :
    s.keyMatches = false := by
  rw [Exceptions.keyMatches_eq_false_iff, hzero]
  exact .inr (Exceptions.paramK_ne_zero hlegal).symm

/-- Settles O50 (70_reset_and_hazards.md R212): an issue changes neither the parameters nor the key's dimensions, so
the checks find what reset left there. -/
theorem resetStateRefusesCommands : Obligations.ResetStateRefusesCommands := by
  refine ⟨fun i hi => ?parameters, fun i n k t huses hlegal => ?key, ?status, ?id, ?cap⟩
  case parameters => exact Encapsulator.failsWith_of_illegal hi (issue_reset_illegal (encode i))
  case key => exact Encapsulator.failsWith_of_mismatch huses hlegal (keyMatches_of_keyK_zero hlegal rfl)
  case status => exact StateRules.statusLayoutAndClearing.1
  case id => rfl
  case cap => rfl

end Sys2Proof.Proofs.Reset
